-- ==== Sys2Proof/Word.lean ====
section
/-! DEFINITION. The register word and the byte (00_scope R5, R12). -/
namespace Sys2Proof

/-- A 256-bit register pattern; bit 0 is the least significant (00_scope R5, R12). -/
abbrev Word := BitVec 256

/-- A byte of a register's 32-byte layout (20_memory R44). -/
abbrev Byte := BitVec 8

end Sys2Proof
end

