-- ==== Sys2Proof/Syntax.lean ====
section
/-! DEFINITION. The instructions: one constructor per row of spec/opcode_table.json. -/
namespace Sys2Proof

/-- A command of the block (30_encoding R62). A command names no register: its inputs are fixed
per opcode and its output is RES (R61). Only CONST carries a field, its selector. -/
inductive Instr where
  | muldiv
  | muldivfp
  | mul
  | div
  | add
  | sub
  | abs
  | avg
  | floor
  | ceil
  | frac
  | fromint
  | toint
  | sqrt
  | gm
  | powu
  | pow
  | log2
  | exp2
  | exp
  | ln
  | log10
  | const (sel : BitVec 8)
  deriving DecidableEq, Repr

end Sys2Proof
end

