-- ==== Sys2Proof/WellFormed.lean ====
section
/-! DEFINITION. Which terms of `Instr` are instructions of the block. -/
namespace Sys2Proof

/-- CONST has a legal selector, 0 to 8 (30_encoding R62, 44_constants R181); every other command
has no field to check. -/
def Instr.wellFormed : Instr → Bool
  | .const sel => sel.toNat ≤ 8
  | .muldiv | .muldivfp | .mul | .div | .add | .sub | .abs | .avg | .floor | .ceil | .frac
  | .fromint | .toint | .sqrt | .gm | .powu | .pow | .log2 | .exp2 | .exp | .ln | .log10 => true

end Sys2Proof
end

