-- ==== Sys2Proof/Decode.lean ====
section
/-! DEFINITION. The command word: its fields, the decoder, the encoder and the byte layout. -/
namespace Sys2Proof

/-- Why decode rejects a word (30_encoding R63). The host sees one IllegalCommand whichever it is
(60_exceptions R206), so the reason is recorded nowhere. -/
inductive IllegalWord where
  /-- A 1 bit in RSV [255:16]. -/
  | reservedBits
  /-- OP is not in the opcode map of R62. -/
  | unknownOpcode
  /-- CONST with SEL above 8. -/
  | unknownSelector
  /-- A nonzero SEL with any other opcode. -/
  | selectorNotAllowed
  deriving DecidableEq, Repr

/-- OP, bits [7:0] of the command word (30_encoding R60). -/
def opField (w : Word) : BitVec 8 := w.extractLsb' 0 8

/-- SEL, bits [15:8] of the command word (30_encoding R60, R61). -/
def selField (w : Word) : BitVec 8 := w.extractLsb' 8 8

/-- RSV, bits [255:16] of the command word (30_encoding R60). -/
def rsvField (w : Word) : BitVec 240 := w.extractLsb' 16 240

/-- The opcode map of 30_encoding R62, read from the number to the command; `sel` is used by CONST
alone. -/
def instrOfOpcode (op : BitVec 8) (sel : BitVec 8) : Option Instr :=
  match op.toNat with
  | 0x01 => some .muldiv
  | 0x02 => some .muldivfp
  | 0x03 => some .mul
  | 0x04 => some .div
  | 0x10 => some .add
  | 0x11 => some .sub
  | 0x12 => some .abs
  | 0x13 => some .avg
  | 0x14 => some .floor
  | 0x15 => some .ceil
  | 0x16 => some .frac
  | 0x17 => some .fromint
  | 0x18 => some .toint
  | 0x20 => some .sqrt
  | 0x21 => some .gm
  | 0x22 => some .powu
  | 0x23 => some .pow
  | 0x30 => some .log2
  | 0x31 => some .exp2
  | 0x32 => some .exp
  | 0x33 => some .ln
  | 0x34 => some .log10
  | 0x40 => some (.const sel)
  | _ => none

/-- Decode of a command word, its checks in the order of 30_encoding R63. -/
def decode (w : Word) : Except IllegalWord Instr :=
  if rsvField w ≠ 0 then .error .reservedBits
  else
    match instrOfOpcode (opField w) (selField w) with
    | none => .error .unknownOpcode
    | some i =>
      if opField w = 0x40 then
        if 8 < (selField w).toNat then .error .unknownSelector else .ok i
      else if selField w ≠ 0 then .error .selectorNotAllowed else .ok i

/-- The opcode of a command (30_encoding R62). -/
def opcode : Instr → BitVec 8
  | .muldiv => 0x01
  | .muldivfp => 0x02
  | .mul => 0x03
  | .div => 0x04
  | .add => 0x10
  | .sub => 0x11
  | .abs => 0x12
  | .avg => 0x13
  | .floor => 0x14
  | .ceil => 0x15
  | .frac => 0x16
  | .fromint => 0x17
  | .toint => 0x18
  | .sqrt => 0x20
  | .gm => 0x21
  | .powu => 0x22
  | .pow => 0x23
  | .log2 => 0x30
  | .exp2 => 0x31
  | .exp => 0x32
  | .ln => 0x33
  | .log10 => 0x34
  | .const _ => 0x40

/-- SEL of a command: the selector of CONST, 0 for every other (30_encoding R60). -/
def selector : Instr → BitVec 8
  | .const sel => sel
  | .muldiv | .muldivfp | .mul | .div | .add | .sub | .abs | .avg | .floor | .ceil | .frac
  | .fromint | .toint | .sqrt | .gm | .powu | .pow | .log2 | .exp2 | .exp | .ln | .log10 => 0

/-- The word of format CMDW with these fields (30_encoding R60). -/
def commandWord (rsv : BitVec 240) (sel op : BitVec 8) : Word :=
  rsv.setWidth 256 <<< 16 ||| sel.setWidth 256 <<< 8 ||| op.setWidth 256

/-- The command word of a command: RSV = 0, then SEL, then OP (30_encoding R60, R62). -/
def encode (i : Instr) : Word := commandWord 0 (selector i) (opcode i)

/-- Byte k of a register's 32-byte layout holds bits [8k+7 : 8k] (20_memory R44). -/
def byteOf (w : Word) (k : Nat) : Byte := w.extractLsb' (8 * k) 8

/-- A register laid out as 32 bytes, the least significant first (20_memory R44). -/
def bytesOfWord (w : Word) : List Byte := (List.range 32).map (byteOf w)

/-- The number whose little-endian bytes are given. -/
def natOfBytes : List Byte → Nat
  | [] => 0
  | b :: bs => b.toNat + 256 * natOfBytes bs

/-- The register laid out as these bytes. There must be 32 of them: the port moves whole registers
(20_memory R42). -/
def wordOfBytes (bs : List Byte) : Option Word :=
  if bs.length = 32 then some (BitVec.ofNat 256 (natOfBytes bs)) else none

/-- The command word of a table row's bits: the `nbits` low bits of `w`, the rest 0. -/
def tableWord (nbits w : Nat) : Word := BitVec.ofNat 256 (w % 2 ^ nbits)

/-- The command the decoder reads from 32 bytes in register order. -/
def decodeBytes (bs : List Byte) : Option Instr :=
  match wordOfBytes bs with
  | none => none
  | some w => (decode w).toOption

/-- The command the decoder reads from a table row's bits, laid out as the port stores them. -/
def decodeTableWord (nbits w : Nat) : Option Instr :=
  decodeBytes (bytesOfWord (tableWord nbits w))

end Sys2Proof
end

