-- ==== Sys2Proof/Config.lean ====
section
/-! DEFINITION. What the spec leaves to the implementation: the parameters of 00_scope R10. -/
namespace Sys2Proof

/-- The registers whose reset contents are the parameter RESET_DATA (00_scope R10, 10_state R34). -/
inductive DataReg where
  | opa | opb | opc | res
  deriving DecidableEq, Repr

/-- The open parameters of 00_scope R10. Every function, meaning and step that depends on one takes
them as an argument; `exec`, `step` and `State.reset`, whose types are fixed, are those at
`Machine.defaultParams` (log 2). -/
structure Params where
  /-- LOG2_ITERS: the number of fractional refinement steps of LOG2 (43 R151, 92 D17). -/
  log2Iters : Nat
  /-- EXP2_CORE: the raw value of 2^(x / SCALE) for `0 ≤ x < 192 * SCALE` (43 R152, 92 D18). -/
  exp2Core : Nat → Nat
  /-- EXP2_NEG_CUTOFF: EXP2 of any x below minus this magnitude is 0 (43 R153, 92 D19). -/
  exp2NegCutoff : Nat
  /-- LOG2_10: the raw value of log2(10) used by LOG10 (43 R157, 92 D21). -/
  log2Ten : Int
  /-- RESET_DATA: what each data register holds after reset (10_state R34, 70_reset R231, 92 D13). -/
  resetData : DataReg → Word

/-- The RESET_DATA of `State.reset` and `step`: an explicit value for each register, as 70_reset R232
allows. DESIGN CHOICE, unsafe: the spec fixes no value, the model takes 0 (log 1). -/
def Config.resetData : DataReg → Word
  | .opa => 0
  | .opb => 0
  | .opc => 0
  | .res => 0

end Sys2Proof
end

