-- ==== Sys2Proof/Machine/State.lean ====
section
/-! DEFINITION. The state of the block, its host and the platform's reset line, and the ways a step
stops. -/
namespace Sys2Proof.Machine

/-- A value operand of the host notation (30_encoding R68). -/
inductive HostValue where
  /-- `fx(d)` for the decimal number d = `mantissa / 10 ^ digits`, at most 18 digits. -/
  | fx (mantissa : Int) (digits : Nat)
  /-- `raw(n)`: the integer n. -/
  | raw (n : Int)
  /-- `0x...`: a pattern. -/
  | hex (w : Word)
  /-- `hN`: the pattern a host register holds. -/
  | reg (r : Fin 8)
  deriving DecidableEq, Repr

/-- A statement of a host program, with its branch labels resolved to statement indices
(30_encoding R68, R70). The notation's WR, RD and CMD are the port accesses of 00_scope R15; their
width in bytes is written out, so that a program with another width can be said (20_memory R42). -/
inductive HostStmt where
  /-- `dst <- MemRead(addr, bytes)`. -/
  | memRead (dst : Fin 8) (addr : BitVec 3) (bytes : Nat)
  /-- `MemWrite(addr, bytes, enc(v))`. -/
  | memWrite (addr : BitVec 3) (bytes : Nat) (v : HostValue)
  /-- `LI hN, v`. -/
  | li (dst : Fin 8) (v : HostValue)
  /-- `SUBI hN, hM, k`. -/
  | subi (dst src : Fin 8) (k : Int)
  /-- `ANDI hN, hM, k`. -/
  | andi (dst src : Fin 8) (k : Word)
  /-- `BNZ hN, label`. -/
  | bnz (src : Fin 8) (target : Nat)
  /-- `BEQZ hN, label`. -/
  | beqz (src : Fin 8) (target : Nat)
  /-- `J label`. -/
  | j (target : Nat)
  /-- `HALT`. -/
  | halt
  deriving DecidableEq, Repr

/-- The error a command ends in (60_exceptions R200). None of them stops the machine: each is
recorded in STATUS (R206). -/
inductive CmdError where
  /-- DomainError, code 1 (R201). -/
  | domain
  /-- OverflowError, code 2 (R202). -/
  | overflow
  /-- IllegalCommand, code 3 (R203). -/
  | illegal
  deriving DecidableEq, Repr

/-- The machine: the block's registers (10_state R20; CMD and indices 6 and 7 hold no state, R31,
R32), the host that drives its port (30_encoding R70) and the platform's resets to come
(70_reset R230). -/
structure State where
  /-- OPA, index 0 (10_state R21). -/
  opa : Word
  /-- OPB, index 1 (10_state R22). -/
  opb : Word
  /-- OPC, index 2 (10_state R23). -/
  opc : Word
  /-- RES, index 3 (10_state R24). -/
  res : Word
  /-- STATUS, index 4, the whole register (10_state R25); its fields are in Machine/Flags.lean. -/
  status : Word
  /-- The host's registers h0 to h7 (30_encoding R68, R70). -/
  h : Vector Word 8
  /-- The host's pc, a statement index (30_encoding R70). -/
  pc : Nat
  /-- The host's program (30_encoding R70); it is loaded from outside (log 4). -/
  program : List HostStmt
  /-- The reset events to come, each as the number of host steps before it (70_reset R230; the form
  is the model's own, log 6). -/
  resets : List Nat
  deriving DecidableEq, Repr

/-- Why the machine stops. No command and no access of an existing width stops it: every error of
a command is a next state (60_exceptions R206). Both are faults of the host program. -/
inductive Fault where
  /-- Raised by a host statement whose literal lies outside `[MIN_VALUE, 2^256 - 1]`, where `enc` is
  not defined (00_scope R13). Safe: the model stops where the notation has no meaning (log 8). -/
  | encUndefined
  /-- Raised by a host statement with an `fx` literal of more than 18 fractional digits, which the
  notation does not have (30_encoding R68). Safe, as above (log 8). -/
  | fxDigits
  deriving DecidableEq, Repr

/-- Why the model gives a step no meaning. -/
inductive Refusal where
  /-- Raised by an arm of `exec` whose instruction has no meaning yet; no arm is one now. Safe. -/
  | notModelled (mnemonic : String)
  /-- Raised by a port access whose width is not 32 bytes (20_memory R42 "any other width is
  refused"; 93 I8). Safe: such a program is outside the model. -/
  | accessWidth
  deriving DecidableEq, Repr

/-- The machine right after reset when RESET_DATA is `d` (10_state R34, 70_reset R231): STATUS is 0
and the data registers hold `d`. The host starts at its first statement with h0 to h7 = 0
(30_encoding R70, 95 section 3); no program is loaded (log 4) and no further reset is due (log 6). -/
def State.resetAt (d : DataReg → Word) : State where
  opa := d .opa
  opb := d .opb
  opc := d .opc
  res := d .res
  status := 0
  h := Vector.replicate 8 0
  pc := 0
  program := []
  resets := []

/-- The machine right after reset, at the RESET_DATA the model names (log 1). -/
def State.reset : State := State.resetAt Config.resetData

end Sys2Proof.Machine
end

