-- ==== Sys2Proof/Machine/Arith.lean ====
section
/-! DEFINITION. The integer functions of 00_scope R14, the constants of R6 to R9, and the integer
square root of 42_power_root R130. -/
namespace Sys2Proof.Machine

/-! ### Constants -/

/-- SCALE (00_scope R6). -/
def scale : Nat := 1000000000000000000

/-- HALF_SCALE (00_scope R6). -/
def halfScale : Nat := 500000000000000000

/-- MIN_VALUE (00_scope R7). -/
def minValue : Int :=
  -57896044618658097711785492504343953926634992332820282019728792003956564819968

/-- MAX_VALUE (00_scope R7). -/
def maxValue : Int :=
  57896044618658097711785492504343953926634992332820282019728792003956564819967

/-- The greatest unsigned magnitude, `2^256 - 1` (00_scope R5). -/
def maxUnsigned : Nat :=
  115792089237316195423570985008687907853269984665640564039457584007913129639935

/-- MIN_WHOLE (00_scope R8). -/
def minWhole : Int :=
  -57896044618658097711785492504343953926634992332820282019728000000000000000000

/-- MAX_WHOLE (00_scope R8). -/
def maxWhole : Int :=
  57896044618658097711785492504343953926634992332820282019728000000000000000000

/-- E (00_scope R9). -/
def eConst : Int := 2718281828459045235

/-- PI (00_scope R9). -/
def piConst : Int := 3141592653589793238

/-- LOG2_E (00_scope R9). -/
def log2E : Int := 1442695040888963407

/-! ### Integer functions -/

/-- `fdiv(a, b)`: floor division, b > 0 (00_scope R14). -/
def fdiv (a b : Int) : Int := a / b

/-- `fmod(a, b)`: the remainder of floor division, b > 0 (00_scope R14). -/
def fmod (a b : Int) : Int := a % b

/-- `tdiv(a, b)`: division truncated toward zero, b ≠ 0 (00_scope R14). -/
def tdiv (a b : Int) : Int := a.tdiv b

/-- `trem(a, b)`: the remainder of truncated division, with the sign of a (00_scope R14). -/
def trem (a b : Int) : Int := a.tmod b

/-- `a >> k` on an integer: `fdiv(a, 2^k)` (00_scope R14). -/
def ashr (a : Int) (k : Nat) : Int := fdiv a (2 ^ k)

/-- `msb(n)`: the index of the most significant set bit, n ≥ 1 (00_scope R14). -/
def msb (n : Nat) : Nat := n.log2

/-- The loop of the Babylonian iteration (42 R130): it stops when the estimate stops falling.
`fuel` bounds the number of rounds; the estimate falls in every round but the last, so the starting
estimate is enough (log 10). -/
def isqrtLoop (n : Nat) : Nat → Nat → Nat
  | 0, s => s
  | fuel + 1, s =>
    let t := (s + n / s) / 2
    if t ≥ s then s else isqrtLoop n fuel t

/-- `Isqrt(n)`: the largest s with `s * s ≤ n`, by the Babylonian form of 42 R130. -/
def isqrt (n : Nat) : Nat :=
  if n = 0 then 0
  else
    let s := 2 ^ ((msb n + 2) / 2)
    isqrtLoop n s s

end Sys2Proof.Machine
end

