-- ==== Sys2Proof/Machine/Operands.lean ====
section
/-! DEFINITION. How a command reads its operands: the interpretations of 00_scope R13 and the
operand table of 30_encoding R65. -/
namespace Sys2Proof.Machine

/-- `uint(v)`: the pattern read as unsigned (00_scope R13). -/
def uint (v : Word) : Nat := v.toNat

/-- `sint(v)`: the pattern read as two's complement (00_scope R13). -/
def sint (v : Word) : Int := v.toInt

/-- `enc(n)`: the pattern whose uint is `n mod 2^256` (00_scope R13). -/
def enc (n : Int) : Word := BitVec.ofInt 256 n

/-- The integers `enc` is defined for, `[MIN_VALUE, 2^256 - 1]` (00_scope R13). -/
def encDefined (n : Int) : Bool := minValue ≤ n && n ≤ maxUnsigned

/-- `zext_N(v)`: an N-bit field widened with zeros (00_scope R13). -/
def zext {n : Nat} (v : BitVec n) : Word := v.setWidth 256

/-- `sext_N(v)`: an N-bit field widened by copying its top bit (00_scope R13). -/
def sext {n : Nat} (v : BitVec n) : Word := v.signExtend 256

/-- OPA read as a signed value (30_encoding R65). -/
def sA (s : State) : Int := sint s.opa

/-- OPB read as a signed value (30_encoding R65). -/
def sB (s : State) : Int := sint s.opb

/-- OPA read as a magnitude (30_encoding R65). -/
def uA (s : State) : Nat := uint s.opa

/-- OPB read as a magnitude (30_encoding R65). -/
def uB (s : State) : Nat := uint s.opb

/-- OPC read as a magnitude (30_encoding R65). -/
def uC (s : State) : Nat := uint s.opc

/-- Does the command read OPA (30_encoding R65)? -/
def readsA : Instr → Bool
  | .const _ => false
  | .muldiv | .muldivfp | .mul | .div | .add | .sub | .abs | .avg | .floor | .ceil | .frac
  | .fromint | .toint | .sqrt | .gm | .powu | .pow | .log2 | .exp2 | .exp | .ln | .log10 => true

/-- Does the command read OPB (30_encoding R65)? -/
def readsB : Instr → Bool
  | .muldiv | .muldivfp | .mul | .div | .add | .sub | .avg | .gm | .powu | .pow => true
  | .abs | .floor | .ceil | .frac | .fromint | .toint | .sqrt | .log2 | .exp2 | .exp | .ln
  | .log10 | .const _ => false

/-- Does the command read OPC (30_encoding R65)? -/
def readsC : Instr → Bool
  | .muldiv => true
  | .muldivfp | .mul | .div | .add | .sub | .abs | .avg | .floor | .ceil | .frac | .fromint
  | .toint | .sqrt | .gm | .powu | .pow | .log2 | .exp2 | .exp | .ln | .log10 | .const _ => false

end Sys2Proof.Machine
end

