-- ==== Sys2Proof/Machine/Flags.lean ====
section
/-! DEFINITION. The fields of STATUS (10_state R25) and what writes them. -/
namespace Sys2Proof.Machine

/-- STATUS.LAST_ERR, bits [1:0] (10_state R26). -/
def lastErr (v : Word) : BitVec 2 := v.extractLsb' 0 2

/-- STATUS.RES_VALID, bit 2 (10_state R27). -/
def resValid (v : Word) : Bool := v.getLsbD 2

/-- STATUS.STK_DOMAIN, bit 8 (10_state R29). -/
def stkDomain (v : Word) : Bool := v.getLsbD 8

/-- STATUS.STK_OVERFLOW, bit 9 (10_state R29). -/
def stkOverflow (v : Word) : Bool := v.getLsbD 9

/-- STATUS.STK_ILLEGAL, bit 10 (10_state R29). -/
def stkIllegal (v : Word) : Bool := v.getLsbD 10

/-- STATUS.LAST_OP, bits [23:16] (10_state R28). -/
def lastOp (v : Word) : BitVec 8 := v.extractLsb' 16 8

/-- The bits of STATUS that hold state; every other bit is reserved and reads 0 (10_state R25, R30). -/
def statusImplemented : Word := 0xff0707

/-- The reserved bits of STATUS are 0 (10_state R30). -/
def reservedClear (v : Word) : Bool := v &&& ~~~statusImplemented == 0

/-- `v` with its bits [lo + n - 1 : lo] replaced by the n-bit field `f`. -/
def putField (lo n : Nat) (f : BitVec n) (v : Word) : Word :=
  (v &&& ~~~(zext (BitVec.allOnes n) <<< lo)) ||| (zext f <<< lo)

/-- Write LAST_ERR. -/
def putLastErr (code : BitVec 2) (v : Word) : Word := putField 0 2 code v

/-- Set RES_VALID (10_state R27: no command clears it). -/
def setResValid (v : Word) : Word := putField 2 1 1 v

/-- Write LAST_OP. -/
def putLastOp (op : BitVec 8) (v : Word) : Word := putField 16 8 op v

/-- The code of an error (60_exceptions R200). -/
def errCode : CmdError → BitVec 2
  | .domain => 1
  | .overflow => 2
  | .illegal => 3

/-- The sticky bit of an error, bit `7 + code` of STATUS (60_exceptions R200, R206). -/
def stickyBit (e : CmdError) : Nat := 7 + (errCode e).toNat

/-- Set the sticky bit of an error (60_exceptions R206). -/
def setSticky (e : CmdError) (v : Word) : Word := putField (stickyBit e) 1 1 v

/-- The sticky bits, STATUS[10:8] (10_state R29). -/
def stickyMask : Word := 0x700

/-- A host write of `w` to STATUS: each sticky bit is cleared where `w` has a 1, and every other
bit of `w` is ignored (10_state R29, R30). -/
def clearSticky (w : Word) (v : Word) : Word := v &&& ~~~(w &&& stickyMask)

/-- STATUS after a command that succeeds (60_exceptions R205). -/
def statusOk (v : Word) : Word := setResValid (putLastErr 0 v)

/-- STATUS after a command that raises `e` (60_exceptions R206). -/
def statusRaise (e : CmdError) (v : Word) : Word := setSticky e (putLastErr (errCode e) v)

end Sys2Proof.Machine
end

