-- ==== Sys2Proof/Machine/Ops.lean ====
section
/-! DEFINITION. The shared operations on registers: reading and writing an index, ending a command
in success or in an error, and reset. -/
namespace Sys2Proof.Machine

/-- The outcome of one step. -/
abbrev StepResult := Host.Outcome State Fault Refusal

/-! ### Register map (10_state R20, 20_memory R41) -/

/-- Index 0, OPA. -/
def idxOpa : BitVec 3 := 0
/-- Index 1, OPB. -/
def idxOpb : BitVec 3 := 1
/-- Index 2, OPC. -/
def idxOpc : BitVec 3 := 2
/-- Index 3, RES. -/
def idxRes : BitVec 3 := 3
/-- Index 4, STATUS. -/
def idxStatus : BitVec 3 := 4
/-- Index 5, CMD. -/
def idxCmd : BitVec 3 := 5

/-- What a host read of an index returns (10_state R20): CMD and the reserved indices read 0
(R31, R32). A read has no side effect (20_memory R46). -/
def readIndex (s : State) (addr : BitVec 3) : Word :=
  match addr.toNat with
  | 0 => s.opa
  | 1 => s.opb
  | 2 => s.opc
  | 3 => s.res
  | 4 => s.status
  | _ => 0

/-- A host write of `w` to an index other than CMD (10_state R20, 20_memory R46): the operand
registers store it, STATUS clears sticky bits, RES and the reserved indices ignore it. A write to
CMD is `Machine/Port.lean`'s `runWord`; here it stores nothing (10_state R31). -/
def writeIndex (addr : BitVec 3) (w : Word) (s : State) : State :=
  match addr.toNat with
  | 0 => { s with opa := w }
  | 1 => { s with opb := w }
  | 2 => { s with opc := w }
  | 4 => { s with status := clearSticky w s.status }
  | _ => s

/-! ### Ending a command -/

/-- LAST_OP is written at the CMD write, before decode (30_encoding R64, 10_state R28). -/
def noteOp (op : BitVec 8) (s : State) : State := { s with status := putLastOp op s.status }

/-- `ok(n)` (60_exceptions R205): RES, LAST_ERR and RES_VALID are written, nothing else. -/
def ok (n : Int) (s : State) : State := { s with res := enc n, status := statusOk s.status }

/-- `raise E` (60_exceptions R206): LAST_ERR and one sticky bit are written, nothing else. It is
how the block takes an error; no control is transferred (R208), so nothing returns from it. -/
def raiseErr (e : CmdError) (s : State) : State := { s with status := statusRaise e s.status }

/-- End a command with what its rule evaluated to: `ok` of a value, `raise` of an error. -/
def finish (r : Except CmdError Int) (s : State) : State :=
  match r with
  | .ok n => ok n s
  | .error e => raiseErr e s

/-- One command of opcode `op` whose rule evaluates to `r` on the operands as they stand
(30_encoding R64). Every command ends, and in a next state (70_reset R237). -/
def command (op : BitVec 8) (r : Except CmdError Int) (s : State) : StepResult :=
  .next (finish r (noteOp op s))

/-- A result in the unsigned range, as the integer `ok` takes (30_encoding R65). -/
def ofMagnitude (r : Except CmdError Nat) : Except CmdError Int := r.map Int.ofNat

/-! ### Reset -/

/-- The reset event (70_reset R231) when RESET_DATA is `d`: STATUS is 0 and the data registers hold
`d`. It reaches the block alone (R230), so the host goes on where it is (log 6). -/
def resetBlock (d : DataReg → Word) (s : State) : State :=
  { s with
    opa := d .opa
    opb := d .opb
    opc := d .opc
    res := d .res
    status := 0 }

end Sys2Proof.Machine
end

