-- ==== Sys2Proof/Machine/Constants.lean ====
section
/-! DEFINITION. The published constants: CONST (44_constants). -/
namespace Sys2Proof.Machine

/-- `CONST_TABLE` (44 R181). -/
def constTable (sel : Nat) : Option Int :=
  match sel with
  | 0 => some scale
  | 1 => some halfScale
  | 2 => some minValue
  | 3 => some maxValue
  | 4 => some minWhole
  | 5 => some maxWhole
  | 6 => some eConst
  | 7 => some piConst
  | 8 => some log2E
  | _ => none

/-- `Const(sel)` (44 R180). A selector above 8 is an IllegalCommand; decode raises it, so only an
ill-formed term of `Instr` reaches it here (log 12). -/
def constS (sel : BitVec 8) : Except CmdError Int :=
  match constTable sel.toNat with
  | some n => .ok n
  | none => .error .illegal

/-- CONST (44 R180). -/
def execConst (sel : BitVec 8) (s : State) : StepResult :=
  command (opcode (.const sel)) (constS sel) s

end Sys2Proof.Machine
end

