-- ==== Sys2Proof/Machine/Elementary.lean ====
section
/-! DEFINITION. The elementary operations: ADD, SUB, ABS, AVG, FLOOR, CEIL, FRAC, FROMINT, TOINT
(41_elementary). -/
namespace Sys2Proof.Machine

/-- A signed result, which must lie in `[MIN_VALUE, MAX_VALUE]`; nothing wraps (00_scope R16). -/
def signedRange (n : Int) : Except CmdError Int :=
  if n < minValue ∨ maxValue < n then .error .overflow else .ok n

/-- `Add(x, y)` (41 R100). -/
def addS (x y : Int) : Except CmdError Int := signedRange (x + y)

/-- `Sub(x, y)` (41 R101). -/
def subS (x y : Int) : Except CmdError Int := signedRange (x - y)

/-- `Abs(x)` (41 R102): the magnitude; MIN_VALUE has none. -/
def absS (x : Int) : Except CmdError Nat :=
  if x = minValue then .error .domain else .ok x.natAbs

/-- `Avg(x, y)` (41 R103): the mean rounded down, by shifts and a correction. -/
def avgS (x y : Int) : Int := ashr x 1 + ashr y 1 + fmod x 2 * fmod y 2

/-- `Floor(x)` (41 R104). -/
def floorS (x : Int) : Except CmdError Int :=
  if x < minWhole then .error .overflow
  else
    let r := trem x scale
    if r = 0 then .ok x
    else if x < 0 then .ok (x - r - scale)
    else .ok (x - r)

/-- `Ceil(x)` (41 R105). -/
def ceilS (x : Int) : Except CmdError Int :=
  if maxWhole < x then .error .overflow
  else
    let r := trem x scale
    if r = 0 then .ok x
    else if 0 < x then .ok (x - r + scale)
    else .ok (x - r)

/-- `Frac(x)` (41 R106). -/
def fracS (x : Int) : Int := trem x scale

/-- `FromInt(k)` (41 R107). -/
def fromIntS (k : Int) : Except CmdError Int := signedRange (k * scale)

/-- `ToInt(x)` (41 R108). -/
def toIntS (x : Int) : Int := tdiv x scale

/-- ADD (41 R100). -/
def execAdd (s : State) : StepResult := command (opcode .add) (addS (sA s) (sB s)) s

/-- SUB (41 R101). -/
def execSub (s : State) : StepResult := command (opcode .sub) (subS (sA s) (sB s)) s

/-- ABS (41 R102). -/
def execAbs (s : State) : StepResult := command (opcode .abs) (ofMagnitude (absS (sA s))) s

/-- AVG (41 R103). -/
def execAvg (s : State) : StepResult := command (opcode .avg) (.ok (avgS (sA s) (sB s))) s

/-- FLOOR (41 R104). -/
def execFloor (s : State) : StepResult := command (opcode .floor) (floorS (sA s)) s

/-- CEIL (41 R105). -/
def execCeil (s : State) : StepResult := command (opcode .ceil) (ceilS (sA s)) s

/-- FRAC (41 R106). -/
def execFrac (s : State) : StepResult := command (opcode .frac) (.ok (fracS (sA s))) s

/-- FROMINT (41 R107). -/
def execFromint (s : State) : StepResult := command (opcode .fromint) (fromIntS (sA s)) s

/-- TOINT (41 R108). -/
def execToint (s : State) : StepResult := command (opcode .toint) (.ok (toIntS (sA s))) s

end Sys2Proof.Machine
end

