-- ==== Sys2Proof/Machine/MulDiv.lean ====
section
/-! DEFINITION. Wide multiply-divide and sign-magnitude dispatch: MULDIV, MULDIVFP, MUL, DIV
(40_muldiv). -/
namespace Sys2Proof.Machine

/-- `applySign(r, negative)` for a magnitude r (40 R80). -/
def applySign (r : Nat) (negative : Bool) : Int := if negative then -(r : Int) else (r : Int)

/-- `neg(x) = (x < 0)`; zero counts as non-negative (40 R80). -/
def isNeg (x : Int) : Bool := x < 0

/-- `MulDivU(a, b, c)` (40 R81): the floor of the exact quotient. -/
def mulDivU (a b c : Nat) : Except CmdError Nat :=
  if c = 0 then .error .domain
  else
    let q := a * b / c
    if maxUnsigned < q then .error .overflow else .ok q

/-- `MulDivFpU(a, b)` (40 R82): the quotient by SCALE, rounded half up. The carry out of
`2^256 - 1` is an overflow (92 D33). -/
def mulDivFpU (a b : Nat) : Except CmdError Nat :=
  let p := a * b
  let q := if halfScale ≤ p % scale then p / scale + 1 else p / scale
  if maxUnsigned < q then .error .overflow else .ok q

/-- Put the sign back on a magnitude, which must not exceed MAX_VALUE (40 R83, R84). -/
def signedOf (negative : Bool) (r : Nat) : Except CmdError Int :=
  if maxValue < (r : Int) then .error .overflow else .ok (applySign r negative)

/-- `MulS(x, y)` (40 R83): the product rounded half away from zero. -/
def mulS (x y : Int) : Except CmdError Int :=
  if x = minValue ∨ y = minValue then .error .domain
  else (mulDivFpU x.natAbs y.natAbs).bind (signedOf (isNeg x != isNeg y))

/-- `DivS(x, y)` (40 R84): the quotient truncated toward zero. -/
def divS (x y : Int) : Except CmdError Int :=
  if x = minValue ∨ y = minValue then .error .domain
  else (mulDivU x.natAbs scale y.natAbs).bind (signedOf (isNeg x != isNeg y))

/-- MULDIV (40 R81). -/
def execMuldiv (s : State) : StepResult :=
  command (opcode .muldiv) (ofMagnitude (mulDivU (uA s) (uB s) (uC s))) s

/-- MULDIVFP (40 R82). -/
def execMuldivfp (s : State) : StepResult :=
  command (opcode .muldivfp) (ofMagnitude (mulDivFpU (uA s) (uB s))) s

/-- MUL (40 R83). -/
def execMul (s : State) : StepResult := command (opcode .mul) (mulS (sA s) (sB s)) s

/-- DIV (40 R84). -/
def execDiv (s : State) : StepResult := command (opcode .div) (divS (sA s) (sB s)) s

end Sys2Proof.Machine
end

