-- ==== Sys2Proof/Machine/Exp2Core.lean ====
section
/-! DEFINITION. The default parameters of 00_scope R10, and the default EXP2_CORE of
43_transcendental R152 as a computation. -/
namespace Sys2Proof.Machine

/-- `2^p * 2^(f / 2^n)` from below, for an n-bit `f`: the bits of `f` are taken from the lowest up,
and each step takes the square root of the value so far, doubled where the bit is 1. The exact value
lies within 4 above the answer (Laws/Exp2Core.lean). -/
def exp2Frac (p : Nat) : Nat → Nat → Nat → Nat
  | 0, _, t => t
  | n + 1, f, t => exp2Frac p n (f / 2) (isqrt (t * 2 ^ p * if f % 2 = 1 then 2 else 1))

/-- The floor of `2^(m / 2^64) * SCALE` when the working precision is p bits, from below (`slack`
0) and from above (`slack` 4). -/
def exp2Bound (p m slack : Nat) : Nat :=
  scale * 2 ^ (m / 2 ^ 64) * (exp2Frac p 64 (m % 2 ^ 64) (2 ^ p) + slack) / 2 ^ p

/-- The floor of `2^(m / 2^64) * SCALE`: the precision is doubled until both bounds agree. -/
def exp2Floor (m : Nat) : Nat → Nat → Nat
  | 0, p => exp2Bound p m 0
  | fuel + 1, p =>
    let lo := exp2Bound p m 0
    if lo = exp2Bound p m 4 then lo else exp2Floor m fuel (2 * p)

/-- `floor(2^(m / 2^64) * SCALE)` for the 192.64 value m: exact at whole m, and for the others by
the search, whose 64 doublings of the precision are enough for every `m < 192 * 2^64` (log 3). -/
def exp2Exact (m : Nat) : Nat :=
  if m % 2 ^ 64 = 0 then scale * 2 ^ (m / 2 ^ 64) else exp2Floor m 64 512

/-- The default EXP2_CORE (43 R152): `floor(2^(m / 2^64) * SCALE)` with
`m = fdiv(x * 2^64, SCALE)`. -/
def exp2CoreDefault (x : Nat) : Nat := exp2Exact (x * 2 ^ 64 / scale)

/-- The defaults of 00_scope R10 (log 2), with the RESET_DATA the model names (log 1). -/
def defaultParams : Params where
  log2Iters := 59
  exp2Core := exp2CoreDefault
  exp2NegCutoff := 59794705707972522261
  log2Ten := 3321928094887362347
  resetData := Config.resetData

end Sys2Proof.Machine
end

