-- ==== Sys2Proof/Machine/Transcendental.lean ====
section
/-! DEFINITION. The transcendental operations: LOG2, EXP2, EXP, LN, LOG10 (43_transcendental). Each
function takes the parameters of 00_scope R10. -/
namespace Sys2Proof.Machine

/-- `Inv(v) = fdiv(10^36, v)` for v > 0 (43 R150). -/
def inv (v : Nat) : Nat := 10 ^ 36 / v

/-- The rounds of LOG2 that are left (43 R151): square the mantissa, and where it reaches 2.0 add
the weight and halve; then halve the weight. -/
def log2Loop : Nat → Nat → Nat → Nat → Nat
  | 0, _, _, res => res
  | rounds + 1, d, y, res =>
    let y := y * y / scale
    if 2 * scale ≤ y then log2Loop rounds (d / 2) (y / 2) (res + d)
    else log2Loop rounds (d / 2) y res

/-- LOG2 of a value that is at least 1.0 (43 R151): the integer part from the most significant bit
of the whole part, the rest from the loop. -/
def log2Reduced (P : Params) (x : Nat) : Nat :=
  let n := msb (x / scale)
  log2Loop P.log2Iters halfScale (x / 2 ^ n) (n * scale)

/-- `Log2(x)` (43 R151): below 1.0 the reciprocal is taken and the sign turned. -/
def log2S (P : Params) (x : Int) : Except CmdError Int :=
  if x ≤ 0 then .error .domain
  else if (scale : Int) ≤ x then .ok (log2Reduced P x.natAbs)
  else .ok (-(log2Reduced P (inv x.natAbs) : Int))

/-- EXP2 of a value that is not negative (43 R153). -/
def exp2Pos (P : Params) (x : Nat) : Except CmdError Nat :=
  if 192 * scale ≤ x then .error .overflow else .ok (P.exp2Core x)

/-- `Exp2(x)` (43 R153): below 0 the reciprocal of `Exp2(-x)`, and 0 below the cutoff. -/
def exp2S (P : Params) (x : Int) : Except CmdError Nat :=
  if x < 0 then
    if x < -(P.exp2NegCutoff : Int) then .ok 0
    else (exp2Pos P x.natAbs).map inv
  else exp2Pos P x.natAbs

/-- EXP_MAX (00_scope R11): the least t with `MulS(t, LOG2_E) ≥ 192 * SCALE`. -/
def expMax : Int := 133084258667509499441

/-- EXP_ZERO_BOUND (00_scope R11): the greatest t with `MulS(-t, LOG2_E) ≥ -EXP2_NEG_CUTOFF`. The
product is rounded half away from zero, so that is the greatest t with
`t * LOG2_E + HALF_SCALE < (EXP2_NEG_CUTOFF + 1) * SCALE` (log 11). -/
def expZeroBound (P : Params) : Int :=
  fdiv (((P.exp2NegCutoff : Int) + 1) * scale - halfScale - 1) log2E

/-- `Exp(x)` (43 R154). -/
def expS (P : Params) (x : Int) : Except CmdError Nat :=
  if x < -expZeroBound P then .ok 0
  else if expMax ≤ x then .error .overflow
  else (mulS x log2E).bind (exp2S P)

/-- `Ln(x)` (43 R155). -/
def lnS (P : Params) (x : Int) : Except CmdError Int :=
  (log2S P x).bind fun l => divS l log2E

/-- The search of the LOG10 table (43 R156) from raw `10^k` up, `n` entries: the k of the entry
that x is. -/
def tenPower (x : Int) : Nat → Nat → Option Nat
  | 0, _ => none
  | n + 1, k => if x = 10 ^ k then some k else tenPower x n (k + 1)

/-- The LOG10 exact-power table: raw `10^k` for k = 0..76 gives `(k - 18) * SCALE` (43 R156). -/
def log10Table (x : Int) : Option Int :=
  (tenPower x 77 0).map fun k => ((k : Int) - 18) * scale

/-- `Log10(x)` (43 R157). -/
def log10S (P : Params) (x : Int) : Except CmdError Int :=
  if x ≤ 0 then .error .domain
  else
    match log10Table x with
    | some r => .ok r
    | none => (log2S P x).bind fun l => divS l P.log2Ten

/-- LOG2 (43 R151) at the parameters `P`. -/
def execLog2At (P : Params) (s : State) : StepResult := command (opcode .log2) (log2S P (sA s)) s

/-- LOG2 (43 R151) at the default parameters (log 2). -/
def execLog2 (s : State) : StepResult := execLog2At defaultParams s

/-- EXP2 (43 R153) at the parameters `P`. -/
def execExp2At (P : Params) (s : State) : StepResult := command (opcode .exp2) (ofMagnitude (exp2S P (sA s))) s

/-- EXP2 (43 R153) at the default parameters (log 2). -/
def execExp2 (s : State) : StepResult := execExp2At defaultParams s

/-- EXP (43 R154) at the parameters `P`. -/
def execExpAt (P : Params) (s : State) : StepResult := command (opcode .exp) (ofMagnitude (expS P (sA s))) s

/-- EXP (43 R154) at the default parameters (log 2). -/
def execExp (s : State) : StepResult := execExpAt defaultParams s

/-- LN (43 R155) at the parameters `P`. -/
def execLnAt (P : Params) (s : State) : StepResult := command (opcode .ln) (lnS P (sA s)) s

/-- LN (43 R155) at the default parameters (log 2). -/
def execLn (s : State) : StepResult := execLnAt defaultParams s

/-- LOG10 (43 R157) at the parameters `P`. -/
def execLog10At (P : Params) (s : State) : StepResult := command (opcode .log10) (log10S P (sA s)) s

/-- LOG10 (43 R157) at the default parameters (log 2). -/
def execLog10 (s : State) : StepResult := execLog10At defaultParams s

end Sys2Proof.Machine
end

