-- ==== Sys2Proof/Machine/PowerRoot.lean ====
section
/-! DEFINITION. The power and root operations: SQRT, GM, POWU, POW (42_power_root). -/
namespace Sys2Proof.Machine

/-- `Sqrt(x)` (42 R131). The bound is the exact one, `x * SCALE ≤ MAX_VALUE` (90 C7, 92 D24). -/
def sqrtS (x : Int) : Except CmdError Nat :=
  if x < 0 then .error .domain
  else if maxValue < x * scale then .error .overflow
  else .ok (isqrt (x * scale).natAbs)

/-- `Gm(x, y)` (42 R132): the range of the product is checked before its sign (92 D16). -/
def gmS (x y : Int) : Except CmdError Nat :=
  let p := x * y
  if p < minValue ∨ maxValue < p then .error .overflow
  else if p < 0 then .error .domain
  else .ok (isqrt p.natAbs)

/-- The loop of POWU (42 R133), right to left over the bits of `k`. `fuel` bounds the rounds, one
for each bit of `k`. -/
def powuLoop : Nat → Nat → Nat → Nat → Except CmdError Nat
  | 0, _, _, r => .ok r
  | fuel + 1, k, xa, r =>
    if k = 0 then .ok r
    else
      match mulDivFpU xa xa with
      | .error e => .error e
      | .ok xa =>
        if k % 2 = 1 then
          match mulDivFpU r xa with
          | .error e => .error e
          | .ok r => powuLoop fuel (k / 2) xa r
        else powuLoop fuel (k / 2) xa r

/-- `Powu(x, n)` (42 R133). The exponent has 256 bits, so 255 rounds cover `n / 2` (70_reset
R237). -/
def powuS (x : Int) (n : Nat) : Except CmdError Int :=
  match absS x with
  | .error e => .error e
  | .ok xa =>
    match powuLoop 255 (n / 2) xa (if n % 2 = 1 then xa else scale) with
    | .error e => .error e
    | .ok r => signedOf (isNeg x && n % 2 == 1) r

/-- `Pow(x, y)` (42 R134): x = 0 ends it before any check. -/
def powS (P : Params) (x y : Int) : Except CmdError Nat :=
  if x = 0 then .ok (if y = 0 then scale else 0)
  else (log2S P x).bind fun l => (mulS l y).bind (exp2S P)

/-- SQRT (42 R131). -/
def execSqrt (s : State) : StepResult := command (opcode .sqrt) (ofMagnitude (sqrtS (sA s))) s

/-- GM (42 R132). -/
def execGm (s : State) : StepResult := command (opcode .gm) (ofMagnitude (gmS (sA s) (sB s))) s

/-- POWU (42 R133). -/
def execPowu (s : State) : StepResult := command (opcode .powu) (powuS (sA s) (uB s)) s

/-- POW (42 R134) at the parameters `P`. -/
def execPowAt (P : Params) (s : State) : StepResult :=
  command (opcode .pow) (ofMagnitude (powS P (sA s) (sB s))) s

/-- POW (42 R134) at the default parameters (log 2). -/
def execPow (s : State) : StepResult := execPowAt defaultParams s

end Sys2Proof.Machine
end

