-- ==== Sys2Proof/Machine/Dispatch.lean ====
section
/-! DEFINITION. One arm per command: the meaning each is dispatched to. -/
namespace Sys2Proof.Machine

/-- Run one command that decode has accepted (30_encoding R64). -/
def exec (i : Instr) (s : State) : Host.Outcome State Fault Refusal :=
  match i with
  | .muldiv => Sys2Proof.Machine.execMuldiv s
  | .muldivfp => Sys2Proof.Machine.execMuldivfp s
  | .mul => Sys2Proof.Machine.execMul s
  | .div => Sys2Proof.Machine.execDiv s
  | .add => Sys2Proof.Machine.execAdd s
  | .sub => Sys2Proof.Machine.execSub s
  | .abs => Sys2Proof.Machine.execAbs s
  | .avg => Sys2Proof.Machine.execAvg s
  | .floor => Sys2Proof.Machine.execFloor s
  | .ceil => Sys2Proof.Machine.execCeil s
  | .frac => Sys2Proof.Machine.execFrac s
  | .fromint => Sys2Proof.Machine.execFromint s
  | .toint => Sys2Proof.Machine.execToint s
  | .sqrt => Sys2Proof.Machine.execSqrt s
  | .gm => Sys2Proof.Machine.execGm s
  | .powu => Sys2Proof.Machine.execPowu s
  | .pow => Sys2Proof.Machine.execPow s
  | .log2 => Sys2Proof.Machine.execLog2 s
  | .exp2 => Sys2Proof.Machine.execExp2 s
  | .exp => Sys2Proof.Machine.execExp s
  | .ln => Sys2Proof.Machine.execLn s
  | .log10 => Sys2Proof.Machine.execLog10 s
  | .const sel => Sys2Proof.Machine.execConst sel s

end Sys2Proof.Machine
end

