-- ==== Sys2Proof/Machine/Port.lean ====
section
/-! DEFINITION. A command at any choice of the parameters, and the host port: reads, writes, and the
command a CMD write runs (20_memory R40, R46, 30_encoding R64). -/
namespace Sys2Proof.Machine

/-- `exec` at the parameters `P` (00_scope R10, R17): the six commands whose rules name a parameter
take it from `P`, and no other command depends on one. At `defaultParams` it is `exec`
(Laws/Port.lean). -/
def execAt (P : Params) (i : Instr) (s : State) : StepResult :=
  match i with
  | .pow => execPowAt P s
  | .log2 => execLog2At P s
  | .exp2 => execExp2At P s
  | .exp => execExpAt P s
  | .ln => execLnAt P s
  | .log10 => execLog10At P s
  | .muldiv | .muldivfp | .mul | .div | .add | .sub | .abs | .avg | .floor | .ceil | .frac
  | .fromint | .toint | .sqrt | .gm | .powu | .const _ => exec i s

/-- A host write of a command word to CMD (10_state R31, 30_encoding R64): decode, then execute. A
word that decode rejects is an IllegalCommand (30_encoding R66, 60_exceptions R203); LAST_OP takes
its low byte all the same (10_state R28). -/
def runWord (P : Params) (w : Word) (s : State) : StepResult :=
  match decode w with
  | .ok i => execAt P i s
  | .error _ => command (opField w) (.error .illegal) s

/-- `MemWrite(addr, 32, w)` (20_memory R46): a write to CMD runs a command, a write to another index
is `writeIndex`. -/
def portWrite (P : Params) (addr : BitVec 3) (w : Word) (s : State) : StepResult :=
  if addr = idxCmd then runWord P w s else .next (writeIndex addr w s)

end Sys2Proof.Machine
end

