-- ==== Sys2Proof/Machine/HostProgram.lean ====
section
/-! DEFINITION. The host that drives the port: its statements (30_encoding R68, R70), the
platform's reset (70_reset R230), and one step of the whole. -/
namespace Sys2Proof.Machine

/-- The raw integer of a literal, where the notation has one (30_encoding R68): `fx(d)` is exactly
`d * 10^18`, with at most 18 fractional digits. -/
def literal (mantissa : Int) (digits : Nat) : Option Int :=
  if digits ≤ 18 then some (mantissa * 10 ^ (18 - digits)) else none

/-- `enc` of a host integer, where it is defined (00_scope R13). -/
def encodeHost (n : Int) : Except Fault Word :=
  if encDefined n then .ok (enc n) else .error .encUndefined

/-- The pattern of a value operand (30_encoding R68). -/
def hostValue (s : State) : HostValue → Except Fault Word
  | .fx mantissa digits =>
    match literal mantissa digits with
    | some n => encodeHost n
    | none => .error .fxDigits
  | .raw n => encodeHost n
  | .hex w => .ok w
  | .reg r => .ok s.h[r]

/-- Write a host register. -/
def setH (r : Fin 8) (w : Word) (s : State) : State := { s with h := s.h.set r w }

/-- The host's pc moves past the statement (30_encoding R70). -/
def advance (s : State) : State := { s with pc := s.pc + 1 }

/-- `pc <- label` (30_encoding R68). -/
def jump (target : Nat) (s : State) : State := { s with pc := target }

/-- Move past the statement in the state a port write leaves. -/
def advanceAfter : StepResult → StepResult
  | .next s => .next (advance s)
  | .fault r => .fault r
  | .refused r => .refused r

/-- `SUBI`: `enc((uint(hM) - k) mod 2^256)` (30_encoding R68). -/
def subImm (w : Word) (k : Int) : Word := enc (fmod ((uint w : Int) - k) (2 ^ 256))

/-- A host access moves one whole register, 32 bytes (20_memory R42). -/
def accessBytes : Nat := 32

/-- One host statement (30_encoding R68, R70). -/
def execStmt (P : Params) (st : HostStmt) (s : State) : StepResult :=
  match st with
  | .memRead dst addr bytes =>
    if bytes = accessBytes then .next (advance (setH dst (readIndex s addr) s))
    else .refused .accessWidth
  | .memWrite addr bytes v =>
    if bytes = accessBytes then
      match hostValue s v with
      | .ok w => advanceAfter (portWrite P addr w s)
      | .error f => .fault f
    else .refused .accessWidth
  | .li dst v =>
    match hostValue s v with
    | .ok w => .next (advance (setH dst w s))
    | .error f => .fault f
  | .subi dst src k => .next (advance (setH dst (subImm s.h[src] k) s))
  | .andi dst src k => .next (advance (setH dst (s.h[src] &&& k) s))
  | .bnz src target => .next (if uint s.h[src] ≠ 0 then jump target s else advance s)
  | .beqz src target => .next (if uint s.h[src] = 0 then jump target s else advance s)
  | .j target => .next (jump target s)
  | .halt => .next s

/-- One step of the host: the statement at its pc. Past the last statement the program has ended
and the block holds its registers (30_encoding R70, 60_exceptions R218; log 5). -/
def hostStep (P : Params) (s : State) : StepResult :=
  match s.program[s.pc]? with
  | some st => execStmt P st s
  | none => .next s

/-- One step of the whole at the parameters `P`: a reset event that is due, else one host statement (70_reset R230: a
reset falls between two port accesses). The count of statements before the next reset goes down
with each host step. -/
def stepAt (P : Params) (s : State) : StepResult :=
  match s.resets with
  | [] => hostStep P s
  | 0 :: later => .next { resetBlock P.resetData s with resets := later }
  | (n + 1) :: later => hostStep P { s with resets := n :: later }

/-- A host program of the one port access `W 5 w` (30_encoding R68), about to run. -/
def loadCommand (w : Word) (s : State) : State :=
  { s with program := [.memWrite idxCmd accessBytes (.hex w)], pc := 0, resets := [] }

end Sys2Proof.Machine
end

