-- ==== Sys2Proof/Machine/Step.lean ====
section
/-! DEFINITION. One step of the machine, and the state whose next step runs a given word. -/
namespace Sys2Proof.Machine

/-- One step, at the default parameters (log 2) and the RESET_DATA the model names (log 1): a reset
event that is due, else one host statement. -/
def step (s : State) : Host.Outcome State Fault Refusal := stepAt defaultParams s

/-- `s` with the command word of a table row's bits as the next port access (log 4). -/
def State.withFetchWord (s : State) (nbits w : Nat) : State := loadCommand (tableWord nbits w) s

end Sys2Proof.Machine
end

