-- ==== Sys2Proof/Machine/Assembler.lean ====
section
/-! DEFINITION. The host notation of 30_encoding R68 and R69: named registers, labels, and the
pseudo-instructions with their expansions. -/
namespace Sys2Proof.Machine

/-- A register name of the notation (10_state R20). -/
inductive RegName where
  | opa | opb | opc | res | status | cmd
  deriving DecidableEq, Repr

/-- `index(reg)` (20_memory R41). -/
def regIndex : RegName → BitVec 3
  | .opa => idxOpa
  | .opb => idxOpb
  | .opc => idxOpc
  | .res => idxRes
  | .status => idxStatus
  | .cmd => idxCmd

/-- A source line of the notation (30_encoding R68, R69). A label's name is a number here. -/
inductive SourceLine where
  | label (name : Nat)
  | wr (r : RegName) (v : HostValue)
  | rd (dst : Fin 8) (r : RegName)
  | cmd (i : Instr)
  | li (dst : Fin 8) (v : HostValue)
  | subi (dst src : Fin 8) (k : Int)
  | andi (dst src : Fin 8) (k : Word)
  | bnz (src : Fin 8) (name : Nat)
  | beqz (src : Fin 8) (name : Nat)
  | j (name : Nat)
  | halt
  | op1 (i : Instr) (a : HostValue)
  | op2 (i : Instr) (a b : HostValue)
  | op3 (i : Instr) (a b c : HostValue)
  | mov (r : RegName)
  | berr (name : Nat)
  | clrstk
  deriving DecidableEq, Repr

/-- `WR <reg>, <value>` (30_encoding R68). -/
def stmtWr (r : RegName) (v : HostValue) : HostStmt := .memWrite (regIndex r) accessBytes v

/-- `RD hN, <reg>` (30_encoding R68). -/
def stmtRd (dst : Fin 8) (r : RegName) : HostStmt := .memRead dst (regIndex r) accessBytes

/-- `CMD <MNEMONIC>` and `CMD CONST, <sel>` (30_encoding R68). -/
def stmtCmd (i : Instr) : HostStmt := .memWrite idxCmd accessBytes (.hex (encode i))

/-- The statements of a line, its pseudo-instruction expanded (30_encoding R69); `at_` gives each
label's statement index. h7 is the scratch register of the expansions. -/
def expandLine (at_ : Nat → Nat) : SourceLine → List HostStmt
  | .label _ => []
  | .wr r v => [stmtWr r v]
  | .rd dst r => [stmtRd dst r]
  | .cmd i => [stmtCmd i]
  | .li dst v => [.li dst v]
  | .subi dst src k => [.subi dst src k]
  | .andi dst src k => [.andi dst src k]
  | .bnz src name => [.bnz src (at_ name)]
  | .beqz src name => [.beqz src (at_ name)]
  | .j name => [.j (at_ name)]
  | .halt => [.halt]
  | .op1 i a => [stmtWr .opa a, stmtCmd i]
  | .op2 i a b => [stmtWr .opa a, stmtWr .opb b, stmtCmd i]
  | .op3 i a b c => [stmtWr .opa a, stmtWr .opb b, stmtWr .opc c, stmtCmd i]
  | .mov r => [stmtRd 7 .res, stmtWr r (.reg 7)]
  | .berr name => [stmtRd 7 .status, .andi 7 7 3, .bnz 7 (at_ name)]
  | .clrstk => [stmtWr .status (.hex stickyMask)]

/-- The statement index a label names: that of the statement after it. The spec does not say what a
name means that no label line has, or that two have. DESIGN CHOICE (log 9): the former is the end of
the program, the latter the first of its lines. -/
def labelIndex (name : Nat) : List SourceLine → Nat
  | [] => 0
  | line :: rest =>
    if line = .label name then 0
    else (expandLine (fun _ => 0) line).length + labelIndex name rest

/-- The statements of a source program (30_encoding R68 to R70). -/
def assemble (src : List SourceLine) : List HostStmt :=
  src.flatMap (expandLine fun name => labelIndex name src)

end Sys2Proof.Machine
end

