-- ==== Sys2Proof/Safety.lean ====
section
/-! DEFINITION. The machine's invariant, and what counts as a safe run: the protocol of
70_reset R232, which keeps a program from depending on reset contents. -/
namespace Sys2Proof.Safety

open Sys2Proof.Machine

/-- The invariant of every step when RESET_DATA is `d`: the reserved STATUS bits are 0 (10_state R30),
and while STATUS.RES_VALID is 0 RES holds its reset contents (10_state R27). -/
structure Inv (d : DataReg → Word) (s : State) : Prop where
  reserved : reservedClear s.status = true
  resHeld : resValid s.status = false → s.res = d .res

/-- Which operand registers the host has written since reset (70_reset R232). RES needs no entry:
STATUS.RES_VALID marks it (10_state R27, R34). This is a record a proof keeps beside the state; the
block has no such state. -/
structure Written where
  opa : Bool
  opb : Bool
  opc : Bool
  deriving DecidableEq, Repr

/-- Nothing is written right after reset (10_state R34). -/
def Written.none : Written := ⟨false, false, false⟩

/-- May this command word be written? Every operand it reads has been written; a word that decode
rejects reads none (70_reset R232). -/
def wordReady (g : Written) (w : Word) : Bool :=
  match decode w with
  | .ok i => (!readsA i || g.opa) && (!readsB i || g.opb) && (!readsC i || g.opc)
  | .error _ => true

/-- May this index be read? An operand register once it is written, RES once a command has succeeded,
the others always (70_reset R232, 20_memory R46). -/
def readReady (g : Written) (s : State) (addr : BitVec 3) : Bool :=
  match addr.toNat with
  | 0 => g.opa
  | 1 => g.opb
  | 2 => g.opc
  | 3 => resValid s.status
  | _ => true

/-- Does the statement keep to the protocol of 70_reset R232? -/
def stmtReady (g : Written) (s : State) : HostStmt → Bool
  | .memRead _ addr _ => readReady g s addr
  | .memWrite addr _ v =>
    match hostValue s v with
    | .ok w => addr ≠ idxCmd || wordReady g w
    | .error _ => true
  | .li _ _ | .subi _ _ _ | .andi _ _ _ | .bnz _ _ | .beqz _ _ | .j _ | .halt => true

/-- What the host has written once the statement has run. -/
def stmtWrites (g : Written) : HostStmt → Written
  | .memWrite addr _ _ =>
    ⟨g.opa || addr = idxOpa, g.opb || addr = idxOpb, g.opc || addr = idxOpc⟩
  | .memRead _ _ _ | .li _ _ | .subi _ _ _ | .andi _ _ _ | .bnz _ _ | .beqz _ _ | .j _ | .halt => g

/-- Is the next step a reset event? -/
def resetDue (s : State) : Bool := s.resets.head? == some 0

/-- The host statement the next step runs, if it runs one. -/
def dueStmt (s : State) : Option HostStmt := if resetDue s then none else s.program[s.pc]?

/-- Does the next step keep to the protocol of 70_reset R232? -/
def stepReady (g : Written) (s : State) : Bool :=
  match dueStmt s with
  | some st => stmtReady g s st
  | none => true

/-- What is written after the next step; a reset leaves every data register unwritten (10_state
R34). -/
def stepWrites (g : Written) (s : State) : Written :=
  if resetDue s then Written.none
  else
    match s.program[s.pc]? with
    | some st => stmtWrites g st
    | none => g

/-- A safe run of `n` steps: each of them keeps to the protocol of 70_reset R232. -/
def safeFor : Nat → Written → State → Bool
  | 0, _, _ => true
  | n + 1, g, s =>
    stepReady g s &&
      match step s with
      | .next t => safeFor n (stepWrites g s) t
      | .fault _ => true
      | .refused _ => true

/-- Two states that a host keeping to the protocol cannot tell apart: they differ only in registers
that nothing has written since reset. -/
structure Agree (g : Written) (s t : State) : Prop where
  status : s.status = t.status
  h : s.h = t.h
  pc : s.pc = t.pc
  program : s.program = t.program
  resets : s.resets = t.resets
  opa : g.opa = true → s.opa = t.opa
  opb : g.opb = true → s.opb = t.opb
  opc : g.opc = true → s.opc = t.opc
  res : resValid s.status = true → s.res = t.res

/-- Two outcomes that such a host cannot tell apart. -/
def AgreeOutcome (g : Written) : StepResult → StepResult → Prop
  | .next s, .next t => Agree g s t
  | .fault a, .fault b => a = b
  | .refused a, .refused b => a = b
  | _, _ => False

end Sys2Proof.Safety
end

