-- ==== Sys2Proof/Certificates/Slice0/Obligations.lean ====
section
/-! DEFINITION. The statements for the provers, and the vocabulary they are written in. -/

namespace Sys2Proof.Claims

open Sys2Proof.Machine

/-- What no command changes: the operand registers (10_state R21 to R23), and the host and the
platform, which are not the block. -/
structure FrameKept (s t : State) : Prop where
  opa : t.opa = s.opa
  opb : t.opb = s.opb
  opc : t.opc = s.opc
  h : t.h = s.h
  pc : t.pc = s.pc
  program : t.program = s.program
  resets : t.resets = s.resets

/-- `t` is `s` after a command of opcode `op` that succeeded, its RES apart (60_exceptions R205,
30_encoding R64): LAST_ERR 0, RES_VALID 1, LAST_OP the opcode, and every other bit of STATUS, the
sticky bits among them, as before. -/
structure Committed (op : BitVec 8) (s t : State) : Prop where
  err : lastErr t.status = 0
  valid : resValid t.status = true
  opNoted : lastOp t.status = op
  rest : ∀ k, 3 ≤ k → k < 16 ∨ 24 ≤ k → t.status.getLsbD k = s.status.getLsbD k
  frame : FrameKept s t

/-- `t` is `s` after a command of opcode `op` that raised `e` (60_exceptions R206, R207, 30_encoding
R64): RES as before, LAST_ERR the code, the error's sticky bit 1, LAST_OP the opcode, and every other
bit of STATUS as before. -/
structure Rejected (op : BitVec 8) (e : CmdError) (s t : State) : Prop where
  res : t.res = s.res
  err : lastErr t.status = errCode e
  sticky : t.status.getLsbD (7 + (errCode e).toNat) = true
  opNoted : lastOp t.status = op
  rest : ∀ k, 2 ≤ k → k ≠ 7 + (errCode e).toNat → k < 16 ∨ 24 ≤ k →
    t.status.getLsbD k = s.status.getLsbD k
  frame : FrameKept s t

/-- The command runs to success and RES, read as a signed value, is `n`. -/
def Succeeds (i : Instr) (s : State) (n : Int) : Prop :=
  ∃ t, exec i s = .next t ∧ sint t.res = n ∧ Committed (opcode i) s t

/-- The command runs to success and RES, read as a magnitude, is `n`. -/
def SucceedsUnsigned (i : Instr) (s : State) (n : Nat) : Prop :=
  ∃ t, exec i s = .next t ∧ uint t.res = n ∧ Committed (opcode i) s t

/-- The command runs and raises `e`. -/
def Raises (i : Instr) (s : State) (e : CmdError) : Prop :=
  ∃ t, exec i s = .next t ∧ Rejected (opcode i) e s t

/-- The command ends as `r` says. -/
def Ends (i : Instr) (s : State) : Except CmdError Int → Prop
  | .ok n => Succeeds i s n
  | .error e => Raises i s e

/-- The signed range, [MIN_VALUE, MAX_VALUE] (00_scope R5). -/
def Representable (n : Int) : Prop := -(2 ^ 255) ≤ n ∧ n ≤ 2 ^ 255 - 1

/-- MulDivFpU as 40 R82 states it, as a relation: the quotient q of `a * b / SCALE` rounded half up
fits in 256 bits and is `out`, or it does not and the step overflows. -/
def FpProduct (a b : Nat) (out : Except CmdError Nat) : Prop :=
  ∃ q, 2 * (q * 10 ^ 18) ≤ 2 * (a * b) + 10 ^ 18 ∧ 2 * (a * b) + 10 ^ 18 < 2 * ((q + 1) * 10 ^ 18) ∧
    ((q ≤ 2 ^ 256 - 1 ∧ out = .ok q) ∨ (2 ^ 256 - 1 < q ∧ out = .error .overflow))

/-- The while loop of 42 R133, as a relation: from `k`, `xa` and `r` it ends in `out`. -/
inductive PowuLoop : Nat → Nat → Nat → Except CmdError Nat → Prop where
  | done (xa r : Nat) : PowuLoop 0 xa r (.ok r)
  | squareFails (k xa r : Nat) (e : CmdError) : 0 < k → FpProduct xa xa (.error e) →
      PowuLoop k xa r (.error e)
  | even (k xa xa' r : Nat) (out : Except CmdError Nat) : 0 < k → FpProduct xa xa (.ok xa') →
      k % 2 = 0 → PowuLoop (k / 2) xa' r out → PowuLoop k xa r out
  | productFails (k xa xa' r : Nat) (e : CmdError) : 0 < k → FpProduct xa xa (.ok xa') →
      k % 2 = 1 → FpProduct r xa' (.error e) → PowuLoop k xa r (.error e)
  | odd (k xa xa' r r' : Nat) (out : Except CmdError Nat) : 0 < k → FpProduct xa xa (.ok xa') →
      k % 2 = 1 → FpProduct r xa' (.ok r') → PowuLoop (k / 2) xa' r' out → PowuLoop k xa r out

/-- The legal command words, as 30_encoding R62 lists them. -/
def LegalWord (w : Word) : Prop :=
  (0x01 ≤ w.toNat ∧ w.toNat ≤ 0x04) ∨ (0x10 ≤ w.toNat ∧ w.toNat ≤ 0x18) ∨
  (0x20 ≤ w.toNat ∧ w.toNat ≤ 0x23) ∨ (0x30 ≤ w.toNat ∧ w.toNat ≤ 0x34) ∨
  ∃ sel, sel ≤ 8 ∧ w.toNat = 0x40 + 256 * sel

/-- The error an evaluation ends in, if any. -/
def errorOf {α : Type} : Except CmdError α → Option CmdError
  | .ok _ => none
  | .error e => some e

/-- The machine at any choice of the parameters of 00_scope R10; `core` is that at the defaults. -/
def coreAt (P : Params) : Host.Core :=
  { State := State, Fault := Fault, Refusal := Refusal, step := stepAt P,
    reset := State.resetAt P.resetData }

/-- The mantissa before round k of 43 R151, started at `y`. -/
def mantissa (y : Nat) : Nat → Nat
  | 0 => y
  | k + 1 =>
    let z := mantissa y k * mantissa y k / 10 ^ 18
    if 2 * 10 ^ 18 ≤ z then z / 2 else z

/-- What round k of 43 R151 adds: its weight `HALF_SCALE >> k` where the squared mantissa reaches
2.0. -/
def roundAdds (y k : Nat) : Nat :=
  if 2 * 10 ^ 18 ≤ mantissa y k * mantissa y k / 10 ^ 18 then 5 * 10 ^ 17 / 2 ^ k else 0

end Sys2Proof.Claims

open Sys2Proof Sys2Proof.Machine Sys2Proof.Claims Sys2Proof.Safety

/-! ### Values and encoding -/

/-- 00_scope R13: what `uint`, `sint` and `enc` are, bit by bit and as inverses on the ranges. -/
def Obligations.PatternsReadAsNumbers : Prop :=
  (∀ v : Word, uint v = ∑ k ∈ Finset.range 256, (v.getLsbD k).toNat * 2 ^ k) ∧
  (∀ v : Word, sint v = (uint v : Int) - 2 ^ 256 * ((v.getLsbD 255).toNat : Int)) ∧
  (∀ n : Int, (uint (enc n) : Int) = n % 2 ^ 256) ∧
  (∀ n : Int, Representable n → sint (enc n) = n) ∧
  (∀ n : Nat, n ≤ 2 ^ 256 - 1 → uint (enc n) = n)

/-- 00_scope R6 to R9: the fixed constants, and the whole-value bounds from the range bounds. -/
def Obligations.ConstantsAreTheSpecs : Prop :=
  scale = 10 ^ 18 ∧ 2 * halfScale = scale ∧ minValue = -(2 ^ 255) ∧ maxValue = 2 ^ 255 - 1 ∧
  maxWhole = maxValue - trem maxValue scale ∧ minWhole = minValue - trem minValue scale ∧
  minWhole = -maxWhole

/-- 30_encoding R62, R63: words written out from the opcode map decode to their commands, and words
that one check each rejects are rejected by that check. -/
def Obligations.SpecWordsDecode : Prop :=
  decode 0x01 = .ok .muldiv ∧ decode 0x04 = .ok .div ∧ decode 0x13 = .ok .avg ∧
  decode 0x22 = .ok .powu ∧ decode 0x31 = .ok .exp2 ∧ decode 0x0640 = .ok (.const 6) ∧
  decode 0x00 = .error .unknownOpcode ∧ decode 0x103 = .error .selectorNotAllowed ∧
  decode 0x940 = .error .unknownSelector ∧ decode 0x10000 = .error .reservedBits

/-- 30_encoding R60, R62: encoding a well-formed command and decoding the word gives it back, with
every selector. -/
def Obligations.DecodeOfEncode : Prop :=
  ∀ i : Instr, i.wellFormed = true → decode (encode i) = .ok i

/-- 30_encoding R62, R66: a word that decodes is the one encoding of a well-formed command. -/
def Obligations.EncodeOfDecode : Prop :=
  ∀ (w : Word) (i : Instr), decode w = .ok i → i.wellFormed = true ∧ encode i = w

/-- 30_encoding R66: decode accepts exactly the words of R62. -/
def Obligations.LegalWordsAreTheTable : Prop :=
  ∀ w : Word, (∃ i, decode w = .ok i) ↔ LegalWord w

/-- 20_memory R44: a register's bytes are little-endian, and the decoder reads a command back from
the bytes of its word. -/
def Obligations.BytesAreLittleEndian : Prop :=
  (∀ (w : Word) (k : Nat), k < 32 → (bytesOfWord w)[k]? = some (w.extractLsb' (8 * k) 8)) ∧
  (∀ i : Instr, i.wellFormed = true → decodeBytes (bytesOfWord (encode i)) = some i)

/-! ### Wide multiply-divide -/

/-- 40_muldiv R81. -/
def Obligations.MuldivIsExactFloor : Prop :=
  encode .muldiv = 0x01 ∧ ∀ s : State,
    (uint s.opc = 0 → Raises .muldiv s .domain) ∧
    ∀ q, 0 < uint s.opc → q * uint s.opc ≤ uint s.opa * uint s.opb →
      uint s.opa * uint s.opb < (q + 1) * uint s.opc →
      (q ≤ 2 ^ 256 - 1 → SucceedsUnsigned .muldiv s q) ∧
      (2 ^ 256 - 1 < q → Raises .muldiv s .overflow)

/-- 40_muldiv R82: half up, and the carry past 2^256 - 1 is an overflow. -/
def Obligations.MuldivfpRoundsHalfUp : Prop :=
  encode .muldivfp = 0x02 ∧ ∀ (s : State) (q : Nat),
    2 * (q * 10 ^ 18) ≤ 2 * (uint s.opa * uint s.opb) + 10 ^ 18 →
    2 * (uint s.opa * uint s.opb) + 10 ^ 18 < 2 * ((q + 1) * 10 ^ 18) →
    (q ≤ 2 ^ 256 - 1 → SucceedsUnsigned .muldivfp s q) ∧
    (2 ^ 256 - 1 < q → Raises .muldivfp s .overflow)

/-- 40_muldiv R83: MIN_VALUE operands are refused first; the magnitude is rounded half up and the
sign put back. -/
def Obligations.MulRoundsHalfAwayFromZero : Prop :=
  encode .mul = 0x03 ∧ ∀ s : State,
    (sint s.opa = -(2 ^ 255) ∨ sint s.opb = -(2 ^ 255) → Raises .mul s .domain) ∧
    ∀ q : Nat, sint s.opa ≠ -(2 ^ 255) → sint s.opb ≠ -(2 ^ 255) →
      2 * (q * 10 ^ 18) ≤ 2 * ((sint s.opa).natAbs * (sint s.opb).natAbs) + 10 ^ 18 →
      2 * ((sint s.opa).natAbs * (sint s.opb).natAbs) + 10 ^ 18 < 2 * ((q + 1) * 10 ^ 18) →
      (q ≤ 2 ^ 255 - 1 →
        Succeeds .mul s (if (sint s.opa < 0 ↔ sint s.opb < 0) then (q : Int) else -q)) ∧
      (2 ^ 255 - 1 < q → Raises .mul s .overflow)

/-- 40_muldiv R84: MIN_VALUE operands, then a zero divisor, then the range; the quotient is
truncated toward zero. -/
def Obligations.DivTruncatesTowardZero : Prop :=
  encode .div = 0x04 ∧ ∀ s : State,
    (sint s.opa = -(2 ^ 255) ∨ sint s.opb = -(2 ^ 255) → Raises .div s .domain) ∧
    (sint s.opb = 0 → Raises .div s .domain) ∧
    (sint s.opa ≠ -(2 ^ 255) → sint s.opb ≠ -(2 ^ 255) → sint s.opb ≠ 0 →
      (((sint s.opa * 10 ^ 18).tdiv (sint s.opb)).natAbs ≤ 2 ^ 255 - 1 →
        Succeeds .div s ((sint s.opa * 10 ^ 18).tdiv (sint s.opb))) ∧
      (2 ^ 255 - 1 < ((sint s.opa * 10 ^ 18).tdiv (sint s.opb)).natAbs → Raises .div s .overflow))

/-- 40_muldiv R86: multiplying the quotient by the divisor gives the dividend back to within one
unit, when the divisor is at most 1.0 in magnitude. -/
def Obligations.MulUndoesDivBelowOne : Prop :=
  ∀ (s : State) (q : Int), (sint s.opb).natAbs ≤ 10 ^ 18 → Succeeds .div s q →
    ∃ p, Succeeds .mul { s with opa := enc q } p ∧ (sint s.opa - p).natAbs ≤ 1

/-! ### Elementary operations -/

/-- 41_elementary R100. -/
def Obligations.AddIsExactOrOverflows : Prop :=
  encode .add = 0x10 ∧ ∀ s : State,
    (Representable (sint s.opa + sint s.opb) → Succeeds .add s (sint s.opa + sint s.opb)) ∧
    (¬ Representable (sint s.opa + sint s.opb) → Raises .add s .overflow)

/-- 41_elementary R101. -/
def Obligations.SubIsExactOrOverflows : Prop :=
  encode .sub = 0x11 ∧ ∀ s : State,
    (Representable (sint s.opa - sint s.opb) → Succeeds .sub s (sint s.opa - sint s.opb)) ∧
    (¬ Representable (sint s.opa - sint s.opb) → Raises .sub s .overflow)

/-- 41_elementary R102. -/
def Obligations.AbsIsMagnitude : Prop :=
  encode .abs = 0x12 ∧ ∀ s : State,
    (sint s.opa ≠ -(2 ^ 255) → Succeeds .abs s |sint s.opa|) ∧
    (sint s.opa = -(2 ^ 255) → Raises .abs s .domain)

/-- 41_elementary R103: the mean rounded down, for every sign; it never fails. -/
def Obligations.AvgRoundsDown : Prop :=
  encode .avg = 0x13 ∧ ∀ (s : State) (z : Int),
    2 * z ≤ sint s.opa + sint s.opb → sint s.opa + sint s.opb < 2 * z + 2 → Succeeds .avg s z

/-- 41_elementary R104. -/
def Obligations.FloorIsGreatestWholeBelow : Prop :=
  encode .floor = 0x14 ∧ ∀ s : State,
    (sint s.opa < minWhole → Raises .floor s .overflow) ∧
    ∀ z : Int, minWhole ≤ sint s.opa → 10 ^ 18 ∣ z → z ≤ sint s.opa → sint s.opa < z + 10 ^ 18 →
      Succeeds .floor s z

/-- 41_elementary R105. -/
def Obligations.CeilIsLeastWholeAbove : Prop :=
  encode .ceil = 0x15 ∧ ∀ s : State,
    (maxWhole < sint s.opa → Raises .ceil s .overflow) ∧
    ∀ z : Int, sint s.opa ≤ maxWhole → 10 ^ 18 ∣ z → sint s.opa ≤ z → z < sint s.opa + 10 ^ 18 →
      Succeeds .ceil s z

/-- 41_elementary R106: the remainder has the sign of x; it never fails. -/
def Obligations.FracKeepsTheSign : Prop :=
  encode .frac = 0x16 ∧ ∀ (s : State) (r : Int),
    10 ^ 18 ∣ sint s.opa - r → r.natAbs < 10 ^ 18 → (0 ≤ sint s.opa → 0 ≤ r) →
    (sint s.opa ≤ 0 → r ≤ 0) → Succeeds .frac s r

/-- 41_elementary R107. -/
def Obligations.FromintScalesOrOverflows : Prop :=
  encode .fromint = 0x17 ∧ ∀ s : State,
    (Representable (sint s.opa * 10 ^ 18) → Succeeds .fromint s (sint s.opa * 10 ^ 18)) ∧
    (¬ Representable (sint s.opa * 10 ^ 18) → Raises .fromint s .overflow)

/-- 41_elementary R108: the quotient is truncated toward zero; it never fails. -/
def Obligations.TointTruncatesTowardZero : Prop :=
  encode .toint = 0x18 ∧ ∀ (s : State) (k : Int),
    k.natAbs * 10 ^ 18 ≤ (sint s.opa).natAbs → (sint s.opa).natAbs < (k.natAbs + 1) * 10 ^ 18 →
    (0 ≤ sint s.opa → 0 ≤ k) → (sint s.opa ≤ 0 → k ≤ 0) → Succeeds .toint s k

/-- 41_elementary R109: an integer that FROMINT accepts comes back through TOINT. -/
def Obligations.TointUndoesFromint : Prop :=
  ∀ (s : State) (v : Int), Succeeds .fromint s v →
    Succeeds .toint { s with opa := enc v } (sint s.opa)

/-! ### Powers and roots -/

/-- 42_power_root R131, with the exact root of R130. -/
def Obligations.SqrtIsFloorRoot : Prop :=
  encode .sqrt = 0x20 ∧ ∀ s : State,
    (sint s.opa < 0 → Raises .sqrt s .domain) ∧
    (2 ^ 255 - 1 < sint s.opa * 10 ^ 18 → Raises .sqrt s .overflow) ∧
    ∀ r : Int, 0 ≤ r → r * r ≤ sint s.opa * 10 ^ 18 → sint s.opa * 10 ^ 18 < (r + 1) * (r + 1) →
      sint s.opa * 10 ^ 18 ≤ 2 ^ 255 - 1 → Succeeds .sqrt s r

/-- 42_power_root R132: the range of the product before its sign. -/
def Obligations.GmIsFloorRootOfProduct : Prop :=
  encode .gm = 0x21 ∧ ∀ s : State,
    (¬ Representable (sint s.opa * sint s.opb) → Raises .gm s .overflow) ∧
    (Representable (sint s.opa * sint s.opb) → sint s.opa * sint s.opb < 0 → Raises .gm s .domain) ∧
    ∀ r : Int, Representable (sint s.opa * sint s.opb) → 0 ≤ r → r * r ≤ sint s.opa * sint s.opb →
      sint s.opa * sint s.opb < (r + 1) * (r + 1) → Succeeds .gm s r

/-- 42_power_root R133: MIN_VALUE first, then the binary method, every step a MulDivFpU, then the
range of the magnitude, then the sign. The loop always ends (70_reset R237). -/
def Obligations.PowuFollowsTheBinaryMethod : Prop :=
  encode .powu = 0x22 ∧ ∀ s : State,
    (sint s.opa = -(2 ^ 255) → Raises .powu s .domain) ∧
    (sint s.opa ≠ -(2 ^ 255) → ∃ out,
      PowuLoop (uint s.opb / 2) (sint s.opa).natAbs
        (if uint s.opb % 2 = 1 then (sint s.opa).natAbs else 10 ^ 18) out ∧
      match out with
      | .error e => Raises .powu s e
      | .ok r =>
        (r ≤ 2 ^ 255 - 1 →
          Succeeds .powu s (if sint s.opa < 0 ∧ uint s.opb % 2 = 1 then -(r : Int) else r)) ∧
        (2 ^ 255 - 1 < r → Raises .powu s .overflow))

/-- 42_power_root R133, its corner cases: x^0 = 1.0 (0^0 too), x^1 = x, 0^n = 0, and the powers of 2.0
up to 2^195, with an overflow at every higher one. -/
def Obligations.PowuCornerCases : Prop :=
  ∀ s : State, sint s.opa ≠ -(2 ^ 255) →
    (uint s.opb = 0 → Succeeds .powu s (10 ^ 18)) ∧
    (uint s.opb = 1 → Succeeds .powu s (sint s.opa)) ∧
    (sint s.opa = 0 → 1 ≤ uint s.opb → Succeeds .powu s 0) ∧
    (sint s.opa = 2 * 10 ^ 18 → uint s.opb ≤ 195 → Succeeds .powu s (2 ^ uint s.opb * 10 ^ 18)) ∧
    (sint s.opa = 2 * 10 ^ 18 → 196 ≤ uint s.opb → Raises .powu s .overflow)

/-- 42_power_root R134: x = 0 ends POW before any check; otherwise it is LOG2, then MUL by y, then
EXP2, and the first of them to raise ends it. -/
def Obligations.PowIsLog2MulExp2 : Prop :=
  encode .pow = 0x23 ∧ ∀ s : State,
    (sint s.opa = 0 → sint s.opb = 0 → Succeeds .pow s (10 ^ 18)) ∧
    (sint s.opa = 0 → sint s.opb ≠ 0 → Succeeds .pow s 0) ∧
    (sint s.opa ≠ 0 → ∃ l, Ends .log2 s l ∧
      match l with
      | .error e => Raises .pow s e
      | .ok l => ∃ p, Ends .mul { s with opa := enc l } p ∧
        match p with
        | .error e => Raises .pow s e
        | .ok p => ∃ r, Ends .exp2 { s with opa := enc p } r ∧ Ends .pow s r)

/-- 42_power_root R135: the square of a root is at most the radicand, with the error the rules give. -/
def Obligations.SquareOfSqrtIsBelow : Prop :=
  ∀ (s : State) (r : Int), Succeeds .sqrt s r →
    ∃ p, Succeeds .mul { s with opa := enc r, opb := enc r } p ∧ p ≤ sint s.opa ∧
      (sint s.opa - p) * 10 ^ 18 < 2 * r + 1 + 10 ^ 18

/-! ### Transcendental operations, at the default parameters of 00_scope R10 -/

/-- 43_transcendental R151: the domain, and the range of the result. -/
def Obligations.Log2DomainAndRange : Prop :=
  encode .log2 = 0x30 ∧ ∀ s : State,
    (sint s.opa ≤ 0 → Raises .log2 s .domain) ∧
    (0 < sint s.opa → ∃ r, Succeeds .log2 s r ∧ -60 * 10 ^ 18 ≤ r ∧ r ≤ 196 * 10 ^ 18)

/-- 43_transcendental R151, at LOG2_ITERS = 59: the whole part is the top bit of the whole quotient,
and the fraction is the sum of the weights `HALF_SCALE >> k` of the rounds whose squared mantissa
reaches 2.0; below 1.0 it is minus the value of the reciprocal. -/
def Obligations.Log2IsTheWeightedBitSum : Prop :=
  ∀ (s : State) (x n : Nat), 2 ^ n * 10 ^ 18 ≤ x → x < 2 ^ (n + 1) * 10 ^ 18 →
    (sint s.opa = x →
      Succeeds .log2 s (n * 10 ^ 18 + ∑ k ∈ Finset.range 59, (roundAdds (x / 2 ^ n) k : Int))) ∧
    (0 < sint s.opa → sint s.opa < 10 ^ 18 → (10 : Int) ^ 36 / sint s.opa = x →
      Succeeds .log2 s (-(n * 10 ^ 18 + ∑ k ∈ Finset.range 59, (roundAdds (x / 2 ^ n) k : Int))))

/-- 43_transcendental R151: at an exact power of two the logarithm is exact, for every choice of the
parameters. -/
def Obligations.Log2IsExactAtPowersOfTwo : Prop :=
  (∀ (P : Params) (k : Nat), log2S P (2 ^ k * 10 ^ 18) = .ok (k * 10 ^ 18)) ∧
  (∀ (P : Params) (k : Nat) (x : Int), 0 < k → x * 2 ^ k = 10 ^ 18 → log2S P x = .ok (-(k * 10 ^ 18))) ∧
  (∀ (s : State) (k : Nat), sint s.opa = 2 ^ k * 10 ^ 18 → Succeeds .log2 s (k * 10 ^ 18))

/-- 43_transcendental R151: at 1.0 and above every truncation lowers the result, so it never exceeds
the true logarithm. It holds for every choice of LOG2_ITERS. -/
def Obligations.Log2NeverExceedsTheTrueLogarithm : Prop :=
  ∀ (P : Params) (x r : Int), 10 ^ 18 ≤ x → log2S P x = .ok r →
    (r : ℝ) / 10 ^ 18 ≤ Real.logb 2 ((x : ℝ) / 10 ^ 18)

/-- 43_transcendental R152: the default EXP2_CORE is the exact floor of the real exponential of the
192.64 value of x. -/
def Obligations.Exp2CoreIsTheExactFloor : Prop :=
  ∀ x : Nat, x < 192 * 10 ^ 18 →
    (defaultParams.exp2Core x : ℝ) ≤
      (2 : ℝ) ^ (((x * 2 ^ 64 / 10 ^ 18 : Nat) : ℝ) / 2 ^ 64) * 10 ^ 18 ∧
    (2 : ℝ) ^ (((x * 2 ^ 64 / 10 ^ 18 : Nat) : ℝ) / 2 ^ 64) * 10 ^ 18 <
      (defaultParams.exp2Core x : ℝ) + 1

/-- 43_transcendental R152: the three properties required of any EXP2_CORE, of the default. -/
def Obligations.Exp2CoreMeetsItsRequirements : Prop :=
  (∀ x : Nat, x < 192 * 10 ^ 18 → 10 ^ 18 ≤ defaultParams.exp2Core x ∧
    defaultParams.exp2Core x ≤ 2 ^ 192 * 10 ^ 18) ∧
  (∀ k : Nat, k ≤ 191 → defaultParams.exp2Core (k * 10 ^ 18) = 2 ^ k * 10 ^ 18) ∧
  (∀ x y : Nat, x ≤ y → y < 192 * 10 ^ 18 → defaultParams.exp2Core x ≤ defaultParams.exp2Core y)

/-- 43_transcendental R153, at the default parameters. -/
def Obligations.Exp2OverItsWholeRange : Prop :=
  encode .exp2 = 0x31 ∧ ∀ s : State,
    (192 * 10 ^ 18 ≤ sint s.opa → Raises .exp2 s .overflow) ∧
    (0 ≤ sint s.opa → sint s.opa < 192 * 10 ^ 18 →
      Succeeds .exp2 s (defaultParams.exp2Core (sint s.opa).toNat)) ∧
    (sint s.opa < 0 → -59794705707972522261 ≤ sint s.opa →
      ∃ v, Succeeds .exp2 { s with opa := enc (-sint s.opa) } v ∧ 0 < v ∧
        Succeeds .exp2 s (10 ^ 36 / v)) ∧
    (sint s.opa < -59794705707972522261 → Succeeds .exp2 s 0)

/-- 00_scope R11: EXP_MAX is the least t whose product with LOG2_E reaches 192.0, and
EXP_ZERO_BOUND, at the default cutoff, the greatest whose negated product does not pass it. -/
def Obligations.ExpBoundsAreExact : Prop :=
  expMax = 133084258667509499441 ∧ expZeroBound defaultParams = 41446531673892822322 ∧
  (∀ t p : Int, 0 ≤ t → mulS t log2E = .ok p → (192 * 10 ^ 18 ≤ p ↔ expMax ≤ t)) ∧
  (∀ t p : Int, 0 ≤ t → mulS (-t) log2E = .ok p →
    (-59794705707972522261 ≤ p ↔ t ≤ expZeroBound defaultParams)) ∧
  (∃ p, mulS expMax log2E = .ok p) ∧ (∃ p, mulS (-expZeroBound defaultParams) log2E = .ok p)

/-- 43_transcendental R154, at the default parameters: 0 below -EXP_ZERO_BOUND, an overflow from
EXP_MAX on, and between them EXP2 of MUL by LOG2_E. -/
def Obligations.ExpIsExp2OfMul : Prop :=
  encode .exp = 0x32 ∧ ∀ s : State,
    (sint s.opa < -41446531673892822322 → Succeeds .exp s 0) ∧
    (133084258667509499441 ≤ sint s.opa → Raises .exp s .overflow) ∧
    (-41446531673892822322 ≤ sint s.opa → sint s.opa < 133084258667509499441 →
      ∃ p r, Succeeds .mul { s with opb := enc 1442695040888963407 } p ∧
        Succeeds .exp2 { s with opa := enc p } r ∧ Succeeds .exp s r)

/-- 43_transcendental R155: the domain of LOG2; otherwise LOG2 divided by LOG2_E, which never fails. -/
def Obligations.LnIsLog2DivLog2E : Prop :=
  encode .ln = 0x33 ∧ ∀ s : State,
    (sint s.opa ≤ 0 → Raises .ln s .domain) ∧
    (0 < sint s.opa → ∃ l r, Succeeds .log2 s l ∧
      Succeeds .div { s with opa := enc l, opb := enc 1442695040888963407 } r ∧ Succeeds .ln s r)

/-- 43_transcendental R156, R157, at the default LOG2_10: the 77 exact powers of ten, and for every
other positive value LOG2 divided by LOG2_10, which never fails. -/
def Obligations.Log10TableElseLog2Div : Prop :=
  encode .log10 = 0x34 ∧ ∀ s : State,
    (sint s.opa ≤ 0 → Raises .log10 s .domain) ∧
    (∀ k : Nat, k ≤ 76 → sint s.opa = 10 ^ k → Succeeds .log10 s (((k : Int) - 18) * 10 ^ 18)) ∧
    (0 < sint s.opa → (∀ k : Nat, k ≤ 76 → sint s.opa ≠ 10 ^ k) → ∃ l r, Succeeds .log2 s l ∧
      Succeeds .div { s with opa := enc l, opb := enc 3321928094887362347 } r ∧ Succeeds .log10 s r)

/-- 43_transcendental R158: which error an operation of the family ends in does not depend on
LOG2_ITERS or EXP2_CORE, of the functions and of the commands. -/
def Obligations.ErrorsIgnorePrecisionParameters : Prop :=
  (∀ (P Q : Params) (x : Int), P.exp2NegCutoff = Q.exp2NegCutoff → P.log2Ten = Q.log2Ten →
    Representable x →
    errorOf (log2S P x) = errorOf (log2S Q x) ∧ errorOf (exp2S P x) = errorOf (exp2S Q x) ∧
    errorOf (expS P x) = errorOf (expS Q x) ∧ errorOf (lnS P x) = errorOf (lnS Q x) ∧
    errorOf (log10S P x) = errorOf (log10S Q x)) ∧
  (∀ (P Q : Params) (i : Instr) (s : State), P.exp2NegCutoff = Q.exp2NegCutoff →
    P.log2Ten = Q.log2Ten → i ∈ [Instr.log2, .exp2, .exp, .ln, .log10] →
    ∃ t u, execAt P i s = .next t ∧ execAt Q i s = .next u ∧ t.status = u.status)

/-! ### Constants -/

/-- 44_constants R180, R181: the nine selectors and their values, with their command words. -/
def Obligations.ConstReadsTheTable : Prop :=
  (∀ sel : BitVec 8, sel.toNat ≤ 8 → encode (.const sel) = BitVec.ofNat 256 (0x40 + 256 * sel.toNat)) ∧
  ∀ s : State,
    Succeeds (.const 0) s 1000000000000000000 ∧ Succeeds (.const 1) s 500000000000000000 ∧
    Succeeds (.const 2) s (-(2 ^ 255)) ∧ Succeeds (.const 3) s (2 ^ 255 - 1) ∧
    Succeeds (.const 4) s
      (-57896044618658097711785492504343953926634992332820282019728000000000000000000) ∧
    Succeeds (.const 5) s
      57896044618658097711785492504343953926634992332820282019728000000000000000000 ∧
    Succeeds (.const 6) s 2718281828459045235 ∧ Succeeds (.const 7) s 3141592653589793238 ∧
    Succeeds (.const 8) s 1442695040888963407

/-! ### Commands as a whole -/

/-- 60_exceptions R203, 30_encoding R66: every word outside the table is an IllegalCommand that
changes LAST_OP, LAST_ERR and STK_ILLEGAL only, at every choice of the parameters. -/
def Obligations.IllegalWordsRaiseIllegalCommand : Prop :=
  ∀ (P : Params) (w : Word) (s : State), ¬ LegalWord w →
    ∃ t, portWrite P idxCmd w s = .next t ∧ Rejected (w.extractLsb' 0 8) .illegal s t

/-- 60_exceptions R205 to R207, 70_reset R237: a CMD write of any word, at every choice of the
parameters, ends in a next state, and in exactly one outcome: a result committed, or one error
recorded with nothing else changed. -/
def Obligations.EveryCommandCommitsOrRaises : Prop :=
  ∀ (P : Params) (w : Word) (s : State), ∃ t, portWrite P idxCmd w s = .next t ∧
    (Committed (w.extractLsb' 0 8) s t ∨ ∃ e, Rejected (w.extractLsb' 0 8) e s t)

/-- 00_scope R17, 30_encoding R65: which registers each command reads, and that its outcome and result
depend on those and on the parameters alone; of the parameters, POW depends on the first three of
00_scope R10, LOG2 and LN on LOG2_ITERS, EXP2 and EXP on EXP2_CORE and EXP2_NEG_CUTOFF, LOG10 on
LOG2_ITERS and LOG2_10, and no other command on any. -/
def Obligations.OnlyListedOperandsMatter : Prop :=
  (∀ i : Instr, (readsC i = true ↔ i = .muldiv) ∧
    (readsB i = true ↔
      i ∈ [Instr.muldiv, .muldivfp, .mul, .div, .add, .sub, .avg, .gm, .powu, .pow]) ∧
    (readsA i = true ↔ ∀ sel, i ≠ .const sel)) ∧
  ∀ (P Q : Params) (i : Instr) (s t : State),
    (i ∈ [Instr.pow, .log2, .ln, .log10] → P.log2Iters = Q.log2Iters) →
    (i ∈ [Instr.pow, .exp2, .exp] → P.exp2Core = Q.exp2Core ∧ P.exp2NegCutoff = Q.exp2NegCutoff) →
    (i = .log10 → P.log2Ten = Q.log2Ten) →
    (readsA i = true → s.opa = t.opa) → (readsB i = true → s.opb = t.opb) →
    (readsC i = true → s.opc = t.opc) → ∃ s' t', execAt P i s = .next s' ∧ execAt Q i t = .next t' ∧
      lastErr s'.status = lastErr t'.status ∧ (lastErr s'.status = 0 → s'.res = t'.res)

/-- 20_memory R46: repeating a CMD write changes nothing more, at every choice of the parameters. -/
def Obligations.RepeatedCommandChangesNothing : Prop :=
  ∀ (P : Params) (w : Word) (s t : State),
    portWrite P idxCmd w s = .next t → portWrite P idxCmd w t = .next t

/-! ### The port and STATUS -/

/-- 10_state R20, R31, R32, 20_memory R46: what a host read of each index returns, and that it changes
nothing but the host's register and pc. -/
def Obligations.PortReadsHaveNoSideEffect : Prop :=
  ∀ (s : State) (dst : Fin 8) (addr : BitVec 3), s.resets = [] →
    s.program[s.pc]? = some (.memRead dst addr 32) →
    ∃ v, step s = .next { s with h := s.h.set dst v, pc := s.pc + 1 } ∧
      (addr = 0 → v = s.opa) ∧ (addr = 1 → v = s.opb) ∧ (addr = 2 → v = s.opc) ∧
      (addr = 3 → v = s.res) ∧ (addr = 4 → v = s.status) ∧
      (addr = 5 ∨ addr = 6 ∨ addr = 7 → v = 0)

/-- 10_state R20 to R24, R29, R30, R32, 20_memory R46: what a host write of each index but CMD does,
and that a step whose host statement is such a write performs it and moves the host's pc past it. -/
def Obligations.PortWritesTouchOneRegister : Prop :=
  (∀ (P : Params) (s : State) (w : Word),
    portWrite P 0 w s = .next { s with opa := w } ∧ portWrite P 1 w s = .next { s with opb := w } ∧
    portWrite P 2 w s = .next { s with opc := w } ∧ portWrite P 3 w s = .next s ∧
    portWrite P 6 w s = .next s ∧ portWrite P 7 w s = .next s ∧
    ∃ t, portWrite P 4 w s = .next t ∧ { t with status := s.status } = s ∧
      (∀ k, 8 ≤ k → k ≤ 10 → t.status.getLsbD k = (s.status.getLsbD k && !w.getLsbD k)) ∧
      (∀ k, k < 8 ∨ 10 < k → t.status.getLsbD k = s.status.getLsbD k)) ∧
  (∀ (s : State) (addr : BitVec 3) (v : HostValue) (w : Word), addr ≠ idxCmd → s.resets = [] →
    s.program[s.pc]? = some (.memWrite addr 32 v) → hostValue s v = .ok w →
    ∃ t, portWrite defaultParams addr w s = .next t ∧ step s = .next { t with pc := s.pc + 1 })

/-- 20_memory R42: an access of another width than 32 bytes is refused. -/
def Obligations.OtherWidthsAreRefused : Prop :=
  ∀ (s : State) (addr : BitVec 3) (n : Nat), n ≠ 32 → s.resets = [] →
    (∀ dst, s.program[s.pc]? = some (.memRead dst addr n) → step s = .refused .accessWidth) ∧
    (∀ v, s.program[s.pc]? = some (.memWrite addr n v) → step s = .refused .accessWidth)

/-- 10_state R24, R26 to R28: LAST_ERR, RES_VALID, LAST_OP and RES change only when a command or a
reset runs: a step that is neither leaves them. Only reset clears RES_VALID. -/
def Obligations.OnlyCommandsAndResetWriteOutcomes : Prop :=
  ∀ s t : State, step s = .next t → resetDue s = false →
    (resValid s.status = true → resValid t.status = true) ∧
    ((∀ n v, s.program[s.pc]? ≠ some (.memWrite idxCmd n v)) →
      t.res = s.res ∧ lastErr t.status = lastErr s.status ∧ resValid t.status = resValid s.status ∧
        lastOp t.status = lastOp s.status)

/-! ### Steps -/

/-- 30_encoding R64, R70: when the host statement at the pc writes to CMD a word that decodes to a
command, the step is `exec` of that command with the host's pc moved past the statement. The count of
steps before the next reset goes down with it (log 6). At other parameters the step is `execAt` of
it, and `exec`, `step` and the whole machine are those at the defaults (00_scope R10, log 2). -/
def Obligations.StepRunsTheDecodedCommand : Prop :=
  (∀ (s t : State) (v : HostValue) (w : Word) (i : Instr),
    s.program[s.pc]? = some (.memWrite idxCmd 32 v) → hostValue s v = .ok w → decode w = .ok i →
    (s.resets = [] → exec i s = .next t → step s = .next { t with pc := s.pc + 1 }) ∧
    (∀ n later, s.resets = (n + 1) :: later → exec i { s with resets := n :: later } = .next t →
      step s = .next { t with pc := s.pc + 1 }) ∧
    (∀ P, s.resets = [] → execAt P i s = .next t → stepAt P s = .next { t with pc := s.pc + 1 })) ∧
  (∀ (i : Instr) (s : State), exec i s = execAt defaultParams i s) ∧
  core = coreAt defaultParams

/-- 30_encoding R68, R70: the statements that access nothing, and the value operands of every
statement: `fx` with at most 18 fractional digits is exactly d * 10^18, and `enc` turns a raw integer
in its domain (00_scope R13) into a pattern. The model's choice (log 8): a literal outside that
domain stops the statement with `encUndefined`, an `fx` of more digits with `fxDigits`. -/
def Obligations.HostOnlyStatements : Prop :=
  (∀ (s : State) (m n : Int) (d : Nat), d ≤ 18 → n * 10 ^ d = m * 10 ^ 18 →
    (-(2 ^ 255) ≤ n ∧ n ≤ 2 ^ 256 - 1 → hostValue s (.fx m d) = .ok (enc n)) ∧
    (¬ (-(2 ^ 255) ≤ n ∧ n ≤ 2 ^ 256 - 1) → hostValue s (.fx m d) = .error .encUndefined)) ∧
  (∀ (s : State) (m : Int) (d : Nat), 18 < d → hostValue s (.fx m d) = .error .fxDigits) ∧
  (∀ (s : State) (n : Int),
    (-(2 ^ 255) ≤ n ∧ n ≤ 2 ^ 256 - 1 → hostValue s (.raw n) = .ok (enc n)) ∧
    (¬ (-(2 ^ 255) ≤ n ∧ n ≤ 2 ^ 256 - 1) → hostValue s (.raw n) = .error .encUndefined)) ∧
  (∀ (s : State) (w : Word), hostValue s (.hex w) = .ok w) ∧
  (∀ (s : State) (r : Fin 8), hostValue s (.reg r) = .ok s.h[r]) ∧
  ∀ s : State, s.resets = [] →
    (∀ dst v w, s.program[s.pc]? = some (.li dst v) → hostValue s v = .ok w →
      step s = .next { s with h := s.h.set dst w, pc := s.pc + 1 }) ∧
    (∀ dst v f, s.program[s.pc]? = some (.li dst v) → hostValue s v = .error f → step s = .fault f) ∧
    (∀ addr v f, s.program[s.pc]? = some (.memWrite addr 32 v) → hostValue s v = .error f →
      step s = .fault f) ∧
    (∀ dst src k, s.program[s.pc]? = some (.subi dst src k) →
      step s = .next { s with
        h := s.h.set dst (enc (((uint s.h[src] : Int) - k) % 2 ^ 256)), pc := s.pc + 1 }) ∧
    (∀ dst src k, s.program[s.pc]? = some (.andi dst src k) →
      step s = .next { s with h := s.h.set dst (s.h[src] &&& k), pc := s.pc + 1 }) ∧
    (∀ src target, s.program[s.pc]? = some (.bnz src target) →
      step s = .next { s with pc := if uint s.h[src] ≠ 0 then target else s.pc + 1 }) ∧
    (∀ src target, s.program[s.pc]? = some (.beqz src target) →
      step s = .next { s with pc := if uint s.h[src] = 0 then target else s.pc + 1 }) ∧
    (∀ target, s.program[s.pc]? = some (.j target) → step s = .next { s with pc := target })

/-- The model's choice for a program that has ended (log 5): HALT and the end of the list leave the
machine as it is, with the block idle and holding its registers (60_exceptions R218). -/
def Obligations.EndedProgramIsIdle : Prop :=
  ∀ s : State, s.resets = [] →
    s.program[s.pc]? = some .halt ∨ s.program[s.pc]? = none → step s = .next s

/-- 30_encoding R69: BERR branches exactly when LAST_ERR is not 0; it leaves STATUS and 3 in h7, and
changes h7 and the pc only. -/
def Obligations.BerrBranchesOnError : Prop :=
  ∀ (s : State) (name target : Nat), s.resets = [] →
    (∀ k, k < 3 → s.program[s.pc + k]? = (expandLine (fun _ => target) (.berr name))[k]?) →
    Host.Core.run Sys2Proof.core 3 s = .next { s with
      h := s.h.set 7 (s.status &&& 3), pc := if lastErr s.status = 0 then s.pc + 3 else target }

/-- 30_encoding R69, 70_reset R235: MOV feeds RES to any of the three operand registers, through h7. -/
def Obligations.MovFeedsRes : Prop :=
  ∀ (s : State) (r : RegName), r = .opa ∨ r = .opb ∨ r = .opc → s.resets = [] →
    (∀ k, k < 2 → s.program[s.pc + k]? = (expandLine id (.mov r))[k]?) →
    Host.Core.run Sys2Proof.core 2 s = .next { s with
      opa := if r = .opa then s.res else s.opa
      opb := if r = .opb then s.res else s.opb
      opc := if r = .opc then s.res else s.opc
      h := s.h.set 7 s.res
      pc := s.pc + 2 }

/-- 30_encoding R69, 60_exceptions R209: CLRSTK clears the three sticky bits and no other bit. -/
def Obligations.ClrstkClearsTheStickyBits : Prop :=
  ∀ s : State, s.resets = [] → s.program[s.pc]? = (expandLine id .clrstk)[0]? →
    ∃ v, step s = .next { s with status := v, pc := s.pc + 1 } ∧
      stkDomain v = false ∧ stkOverflow v = false ∧ stkIllegal v = false ∧
      (∀ k, k < 8 ∨ 10 < k → v.getLsbD k = s.status.getLsbD k)

/-! ### Reset, the invariant, and independence of reset contents -/

/-- 10_state R34, 70_reset R230, R231: the state at reset, a reset event that is due, and one that
is not due yet, which changes nothing about the step but its own count. RESET_DATA is the parameter
of 00_scope R10; the values of it at `State.reset` and `step` are the model's choice (log 1). The
count, and that the host goes on where it is, are the model's form of the event (log 6). -/
def Obligations.ResetClearsStatus : Prop :=
  (∀ d : DataReg → Word, (State.resetAt d).status = 0 ∧ (State.resetAt d).opa = d .opa ∧
    (State.resetAt d).opb = d .opb ∧ (State.resetAt d).opc = d .opc ∧ (State.resetAt d).res = d .res) ∧
  State.reset = State.resetAt defaultParams.resetData ∧
  (∀ (P : Params) (s : State) (later : List Nat), s.resets = 0 :: later →
    stepAt P s = .next { s with
      opa := P.resetData .opa, opb := P.resetData .opb, opc := P.resetData .opc,
      res := P.resetData .res, status := 0, resets := later }) ∧
  (∀ (P : Params) (s t : State) (n : Nat) (later : List Nat), s.resets = [] → stepAt P s = .next t →
    stepAt P { s with resets := (n + 1) :: later } = .next { t with resets := n :: later })

/-- The invariant holds at reset (10_state R34), whatever RESET_DATA is. -/
def Obligations.ResetMeetsTheInvariant : Prop :=
  Inv Config.resetData State.reset ∧ ∀ d, Inv d (State.resetAt d)

/-- 10_state R27, R30: every step keeps the reserved STATUS bits 0, and RES at its reset contents
while RES_VALID is 0, at every choice of the parameters. -/
def Obligations.StepKeepsTheInvariant : Prop :=
  (∀ s t : State, Inv Config.resetData s → step s = .next t → Inv Config.resetData t) ∧
  (∀ (P : Params) (s t : State), Inv P.resetData s → stepAt P s = .next t → Inv P.resetData t)

/-- 70_reset R232: a step that keeps to the protocol of R232 goes the same way from two states that
differ only in registers nothing has written since reset, and under any two RESET_DATA, and leaves
two such states. -/
def Obligations.ReadyStepIgnoresResetContents : Prop :=
  ∀ (d : DataReg → Word) (g : Written) (s t : State), Agree g s t → stepReady g s = true →
    AgreeOutcome (stepWrites g s) (step s) (stepAt { defaultParams with resetData := d } t)

/-- 70_reset R232: a safe run from reset observes nothing of RESET_DATA. Two machines just after
reset with any contents of the data registers and any two RESET_DATA, driven by the same program, end
their safe runs with the same STATUS and host registers, and with the same RES once a command has
succeeded. -/
def Obligations.SafeRunIgnoresResetContents : Prop :=
  ∀ (d : DataReg → Word) (n : Nat) (s t s' : State), Agree Written.none s t →
    safeFor n Written.none s = true → Host.Core.run Sys2Proof.core n s = .next s' →
    ∃ t', Host.Core.run (coreAt { defaultParams with resetData := d }) n t = .next t' ∧
      t'.status = s'.status ∧ t'.h = s'.h ∧ t'.pc = s'.pc ∧
      (resValid s'.status = true → t'.res = s'.res)
end

