-- ==== Sys2Proof/Laws/Arith.lean ====
section
/-! SUPPORT. The integer square root and the constants. -/
namespace Sys2Proof.Machine

/-- A Newton step from above stays at or above the root. -/
theorem sqrt_le_newton {n s : Nat} (hs : 0 < s) : Nat.sqrt n ≤ (s + n / s) / 2 := by
  rw [Nat.le_div_iff_mul_le (by decide)]
  have h1 : Nat.sqrt n * Nat.sqrt n ≤ n := Nat.sqrt_le n
  have h2 : n < (n / s + 1) * s := by
    have := Nat.lt_div_mul_add (a := n) hs
    nlinarith
  have h3 : Nat.sqrt n * Nat.sqrt n < (n / s + 1) * s := lt_of_le_of_lt h1 h2
  by_contra hc
  have h4 : s + n / s + 1 ≤ Nat.sqrt n * 2 := by omega
  have h5 : (s + (n / s + 1)) * (s + (n / s + 1)) ≤ (Nat.sqrt n * 2) * (Nat.sqrt n * 2) :=
    Nat.mul_self_le_mul_self (by omega)
  have h6 : 4 * ((n / s + 1) * s) ≤ (s + (n / s + 1)) * (s + (n / s + 1)) := by
    zify
    nlinarith [sq_nonneg ((s : Int) - (n / s + 1))]
  nlinarith

/-- The loop of the Babylonian iteration ends at the root when it starts at or above it and has as
many rounds as its starting estimate (42 R130). -/
theorem isqrtLoop_eq {n : Nat} (hn : 0 < n) :
    ∀ fuel s, 0 < s → Nat.sqrt n ≤ s → s ≤ fuel → isqrtLoop n fuel s = Nat.sqrt n := by
  intro fuel
  induction fuel with
  | zero => intro s hs _ h; omega
  | succ fuel ih =>
    intro s hs hle hf
    rw [isqrtLoop]
    by_cases ht : (s + n / s) / 2 ≥ s
    · rw [if_pos ht]
      have h1 : s ≤ n / s := by omega
      have h2 : s * s ≤ n := (Nat.le_div_iff_mul_le hs).1 h1
      exact le_antisymm (Nat.le_sqrt.2 h2) hle
    · rw [if_neg ht]
      have h1 := sqrt_le_newton (n := n) hs
      have h2 : 0 < Nat.sqrt n := Nat.sqrt_pos.2 hn
      exact ih _ (by omega) h1 (by omega)

/-- The Babylonian iteration returns the integer square root (42 R130). -/
theorem isqrt_eq_sqrt (n : Nat) : isqrt n = Nat.sqrt n := by
  unfold isqrt
  by_cases hn : n = 0
  · simp [hn]
  · rw [if_neg hn]
    have hpos : 0 < n := Nat.pos_of_ne_zero hn
    refine isqrtLoop_eq hpos _ _ (by positivity) ?_ le_rfl
    rw [← Nat.lt_succ_iff, Nat.sqrt_lt, msb]
    have h1 : n < 2 ^ (n.log2 + 1) := Nat.lt_log2_self
    have h2 : 2 ^ (n.log2 + 1) ≤ 2 ^ ((n.log2 + 2) / 2) * 2 ^ ((n.log2 + 2) / 2) := by
      rw [← pow_add]
      exact Nat.pow_le_pow_right (by decide) (by omega)
    calc n < 2 ^ ((n.log2 + 2) / 2) * 2 ^ ((n.log2 + 2) / 2) := lt_of_lt_of_le h1 h2
      _ ≤ _ := Nat.mul_self_le_mul_self (Nat.le_succ _)

theorem isqrt_sq_le (n : Nat) : isqrt n * isqrt n ≤ n := by
  rw [isqrt_eq_sqrt]; exact Nat.sqrt_le n

theorem lt_isqrt_succ_sq (n : Nat) : n < (isqrt n + 1) * (isqrt n + 1) := by
  rw [isqrt_eq_sqrt]; exact Nat.lt_succ_sqrt n

/-- The root is the only number whose square brackets n. -/
theorem isqrt_unique {n s : Nat} (h1 : s * s ≤ n) (h2 : n < (s + 1) * (s + 1)) : isqrt n = s := by
  rw [isqrt_eq_sqrt]
  exact Nat.eq_sqrt.2 ⟨h1, h2⟩ |>.symm

/-! ### The constants (00_scope R5 to R8) -/

theorem scale_eq : scale = 10 ^ 18 := by decide
theorem scale_eq_half : scale = 2 * halfScale := by decide
/-- SCALE as an integer literal, for linear arithmetic. -/
theorem scale_int : ((scale : Nat) : Int) = 1000000000000000000 := rfl

theorem scale_pos : 0 < scale := by decide
theorem minValue_eq : minValue = -(2 ^ 255) := by decide
theorem maxValue_eq : maxValue = 2 ^ 255 - 1 := by decide
theorem maxUnsigned_eq : maxUnsigned = 2 ^ 256 - 1 := by decide
theorem maxWhole_eq : maxWhole = maxValue - trem maxValue scale := by decide
theorem minWhole_eq : minWhole = minValue - trem minValue scale := by decide

end Sys2Proof.Machine
end

