-- ==== Sys2Proof/Laws/Decode.lean ====
section
/-! SUPPORT. The fields of the command word, read back from a word put together from them. -/
namespace Sys2Proof

/-- Every bit of a command word, from its fields. -/
theorem getLsbD_commandWord (r : BitVec 240) (s o : BitVec 8) (k : Nat) (hk : k < 256) :
    (commandWord r s o).getLsbD k =
      if k < 8 then o.getLsbD k else if k < 16 then s.getLsbD (k - 8) else r.getLsbD (k - 16) := by
  unfold commandWord
  rw [BitVec.getLsbD_or, BitVec.getLsbD_or, BitVec.getLsbD_shiftLeft, BitVec.getLsbD_shiftLeft,
    BitVec.getLsbD_setWidth, BitVec.getLsbD_setWidth, BitVec.getLsbD_setWidth]
  by_cases h1 : k < 8
  · have h2 : k < 16 := by omega
    simp [hk, h1, h2]
  · by_cases h2 : k < 16
    · simp [hk, h1, h2, BitVec.getLsbD_of_ge o k (by omega)]
      intro; omega
    · simp [hk, h1, h2, BitVec.getLsbD_of_ge o k (by omega),
        BitVec.getLsbD_of_ge s (k - 8) (by omega)]
      intro; omega

/-- A word is its three fields (30_encoding R60). -/
theorem word_fields (w : Word) : commandWord (rsvField w) (selField w) (opField w) = w := by
  apply BitVec.eq_of_getLsbD_eq
  intro k hk
  rw [getLsbD_commandWord _ _ _ _ hk]
  unfold rsvField selField opField
  by_cases h1 : k < 8
  · simp [h1]
  · by_cases h2 : k < 16
    · have h3 : k - 8 < 8 := by omega
      have h4 : 8 + (k - 8) = k := by omega
      simp [h1, h2, h3, h4]
    · have h3 : k - 16 < 240 := by omega
      have h4 : 16 + (k - 16) = k := by omega
      simp [h1, h2, h3, h4]

@[simp] theorem opField_commandWord (r : BitVec 240) (s o : BitVec 8) :
    opField (commandWord r s o) = o := by
  apply BitVec.eq_of_getLsbD_eq
  intro k hk
  rw [opField, BitVec.getLsbD_extractLsb', getLsbD_commandWord _ _ _ _ (by omega)]
  simp [hk]

@[simp] theorem selField_commandWord (r : BitVec 240) (s o : BitVec 8) :
    selField (commandWord r s o) = s := by
  apply BitVec.eq_of_getLsbD_eq
  intro k hk
  rw [selField, BitVec.getLsbD_extractLsb', getLsbD_commandWord _ _ _ _ (by omega)]
  have h1 : 8 + k < 16 := by omega
  simp [hk, h1]

@[simp] theorem rsvField_commandWord (r : BitVec 240) (s o : BitVec 8) :
    rsvField (commandWord r s o) = r := by
  apply BitVec.eq_of_getLsbD_eq
  intro k hk
  rw [rsvField, BitVec.getLsbD_extractLsb', getLsbD_commandWord _ _ _ _ (by omega)]
  have h1 : ¬ 16 + k < 8 := by omega
  simp [hk, h1]

@[simp] theorem opField_encode (i : Instr) : opField (encode i) = opcode i := by
  simp [encode]

@[simp] theorem selField_encode (i : Instr) : selField (encode i) = selector i := by
  simp [encode]

@[simp] theorem rsvField_encode (i : Instr) : rsvField (encode i) = 0 := by
  simp [encode]

/-- The opcode map reads back the opcode of every command (30_encoding R62). -/
theorem instrOfOpcode_opcode (i : Instr) : instrOfOpcode (opcode i) (selector i) = some i := by
  cases i <;> rfl

/-- Only the opcodes of R62 are in the map, and each names one command. -/
theorem opcode_of_instrOfOpcode {op sel : BitVec 8} {i : Instr}
    (h : instrOfOpcode op sel = some i) : opcode i = op ∧ (op = 0x40 → selector i = sel) := by
  have key : op = BitVec.ofNat 8 op.toNat := by simp
  unfold instrOfOpcode at h
  split at h <;> first
    | (rename_i hop
       simp only [Option.some.injEq] at h
       subst h
       rw [hop] at key
       subst key
       refine ⟨rfl, fun h40 => ?_⟩
       first
         | rfl
         | exact absurd h40 (by decide))
    | exact absurd h (by simp)

/-- What a word that decode accepts looks like (30_encoding R63). -/
theorem decode_ok {w : Word} {i : Instr} (h : decode w = .ok i) :
    rsvField w = 0 ∧ instrOfOpcode (opField w) (selField w) = some i ∧
      (opField w = 0x40 → (selField w).toNat ≤ 8) ∧ (opField w ≠ 0x40 → selField w = 0) := by
  unfold decode at h
  split at h
  · exact absurd h (by simp)
  · rename_i hr
    split at h
    · exact absurd h (by simp)
    · rename_i j hj
      split at h
      · rename_i h40
        split at h
        · exact absurd h (by simp)
        · rename_i h8
          simp only [Except.ok.injEq] at h
          subst h
          exact ⟨by simpa using hr, hj, fun _ => by omega, fun hc => absurd h40 hc⟩
      · rename_i h40
        split at h
        · exact absurd h (by simp)
        · rename_i h0
          simp only [Except.ok.injEq] at h
          subst h
          exact ⟨by simpa using hr, hj, fun hc => absurd hc h40, fun _ => by simpa using h0⟩

/-! ### The byte layout (20_memory R44) -/

/-- The bytes of a number, least significant first. -/
theorem natOfBytes_range (n : Nat) : ∀ k, natOfBytes ((List.range k).map fun j =>
    BitVec.ofNat 8 (n / 2 ^ (8 * j))) = n % 2 ^ (8 * k) := by
  intro k
  induction k generalizing n with
  | zero => simp [natOfBytes, Nat.mod_one]
  | succ k ih =>
    rw [List.range_succ_eq_map, List.map_cons, List.map_map, natOfBytes]
    have h : ((fun j => BitVec.ofNat 8 (n / 2 ^ (8 * j))) ∘ Nat.succ) =
        fun j => BitVec.ofNat 8 ((n / 256) / 2 ^ (8 * j)) := by
      funext j
      have : (2 : Nat) ^ (8 * (j + 1)) = 256 * 2 ^ (8 * j) := by
        rw [Nat.mul_add, pow_add]; omega
      simp only [Function.comp, Nat.succ_eq_add_one]
      rw [this, Nat.div_div_eq_div_mul]
    rw [h, ih]
    have h2 : (2 : Nat) ^ (8 * (k + 1)) = 256 * 2 ^ (8 * k) := by
      rw [Nat.mul_add, pow_add]; omega
    rw [h2, Nat.mod_mul]
    simp

/-- Laying a register out as bytes and reading the bytes back gives the register. -/
theorem wordOfBytes_bytesOfWord (w : Word) : wordOfBytes (bytesOfWord w) = some w := by
  have hlen : (bytesOfWord w).length = 32 := by simp [bytesOfWord]
  have hb : bytesOfWord w =
      (List.range 32).map fun j => BitVec.ofNat 8 (w.toNat / 2 ^ (8 * j)) := by
    unfold bytesOfWord
    apply List.map_congr_left
    intro j _
    unfold byteOf
    apply BitVec.eq_of_toNat_eq
    simp [Nat.shiftRight_eq_div_pow]
  rw [wordOfBytes, if_pos hlen, hb, natOfBytes_range]
  congr 1
  apply BitVec.eq_of_toNat_eq
  have h := w.isLt
  simpa using h

end Sys2Proof
end

