-- ==== Sys2Proof/Laws/Operands.lean ====
section
/-! SUPPORT. The interpretations of a pattern (00_scope R13): their ranges, and `enc` as their
inverse. -/
namespace Sys2Proof.Machine

theorem uint_lt (v : Word) : uint v < 2 ^ 256 := v.isLt

theorem minValue_le_sint (v : Word) : -(2 ^ 255) ≤ sint v := BitVec.le_toInt v

theorem sint_lt (v : Word) : sint v < 2 ^ 255 := BitVec.toInt_lt

/-- The magnitude of a signed value other than MIN_VALUE is at most MAX_VALUE (40 R80). -/
theorem natAbs_sint_lt {v : Word} (h : sint v ≠ -(2 ^ 255)) : (sint v).natAbs < 2 ^ 255 := by
  have h1 := minValue_le_sint v
  have h2 := sint_lt v
  omega

@[simp] theorem sint_enc {n : Int} (h1 : -(2 ^ 255) ≤ n) (h2 : n < 2 ^ 255) : sint (enc n) = n := by
  unfold sint enc
  rw [BitVec.toInt_ofInt]
  exact Int.bmod_eq_of_le (by norm_num; omega) (by norm_num; omega)

@[simp] theorem uint_enc {n : Nat} (h : n < 2 ^ 256) : uint (enc n) = n := by
  unfold uint enc
  rw [BitVec.ofInt_natCast, BitVec.toNat_ofNat, Nat.mod_eq_of_lt h]

theorem enc_sint (v : Word) : enc (sint v) = v := by simp [enc, sint]

end Sys2Proof.Machine
end

