-- ==== Sys2Proof/Laws/Elementary.lean ====
section
/-! SUPPORT. What the elementary operations answer (41_elementary). -/
namespace Sys2Proof.Machine

theorem signedRange_ok {n : Int} (h1 : -(2 ^ 255) ≤ n) (h2 : n < 2 ^ 255) : signedRange n = .ok n := by
  rw [signedRange, if_neg (by rw [minValue_eq, maxValue_eq]; omega)]

theorem signedRange_overflow {n : Int} (h : n < -(2 ^ 255) ∨ 2 ^ 255 ≤ n) :
    signedRange n = .error .overflow := by
  rw [signedRange, if_pos (by rw [minValue_eq, maxValue_eq]; omega)]

theorem absS_ok {x : Int} (h : x ≠ -(2 ^ 255)) : absS x = .ok x.natAbs := by
  rw [absS, if_neg (by rwa [minValue_eq])]

theorem absS_domain : absS (-(2 ^ 255)) = .error .domain := by
  rw [absS, if_pos (by rw [minValue_eq])]

/-- The shift-and-correct mean is the floor of the mean (41 R103). -/
theorem avgS_eq (x y : Int) : avgS x y = (x + y) / 2 := by
  unfold avgS ashr fdiv fmod
  rcases Int.emod_two_eq_zero_or_one x with h1 | h1 <;>
    rcases Int.emod_two_eq_zero_or_one y with h2 | h2 <;> rw [h1, h2] <;> omega

/-- The remainder of truncation by SCALE: it is smaller than SCALE, it has the sign of x, and it
differs from x by a whole value (00_scope R14). -/
theorem trem_scale (x : Int) : ∃ k : Int, x = 1000000000000000000 * k + trem x scale ∧
    (0 ≤ x → 0 ≤ trem x scale) ∧ (x ≤ 0 → trem x scale ≤ 0) ∧
    -1000000000000000000 < trem x scale ∧ trem x scale < 1000000000000000000 := by
  have h2 : (trem x scale).natAbs < 1000000000000000000 := by
    rw [trem, Int.natAbs_tmod]
    exact Nat.mod_lt _ scale_pos
  refine ⟨x.tdiv scale, (Int.mul_tdiv_add_tmod x scale).symm, fun h => Int.tmod_nonneg _ h,
    fun h => ?_, by omega, by omega⟩
  have := Int.tmod_nonneg (scale : Int) (show 0 ≤ -x by omega)
  rw [Int.neg_tmod] at this
  unfold trem
  omega

/-- The remainder of truncation, as the one number that fits its description (41 R106). -/
theorem trem_unique {x r : Int} (hd : (scale : Int) ∣ x - r) (hr : r.natAbs < scale)
    (hp : 0 ≤ x → 0 ≤ r) (hn : x ≤ 0 → r ≤ 0) : trem x scale = r := by
  obtain ⟨q, hq⟩ := hd
  obtain ⟨k, h1, h3, h4, h5, h6⟩ := trem_scale x
  rw [scale_int] at hq
  have hs : scale = 1000000000000000000 := rfl
  rw [hs] at hr
  rcases le_total 0 x with h | h
  · have := h3 h; have := hp h; omega
  · have := h4 h; have := hn h; omega

/-- Truncated division, as the one number that fits its description (41 R108). -/
theorem tdiv_unique {x k : Int} (h1 : k.natAbs * scale ≤ x.natAbs)
    (h2 : x.natAbs < (k.natAbs + 1) * scale) (hp : 0 ≤ x → 0 ≤ k) (hn : x ≤ 0 → k ≤ 0) :
    tdiv x scale = k := by
  unfold tdiv
  have h3 : (x.tdiv scale).natAbs = k.natAbs := by
    rw [Int.natAbs_tdiv]
    change x.natAbs / scale = k.natAbs
    exact Nat.div_eq_of_lt_le h1 h2
  have hs : (0 : Int) < scale := by exact_mod_cast scale_pos
  rcases le_total 0 x with h | h
  · have h4 : 0 ≤ x.tdiv scale := Int.tdiv_nonneg h hs.le
    have := hp h
    omega
  · have h4 : 0 ≤ (-x).tdiv scale := Int.tdiv_nonneg (by omega) hs.le
    rw [Int.neg_tdiv] at h4
    have := hn h
    omega

/-- Floor answers the greatest whole value that is not above x (41 R104). -/
theorem floorS_unique {x z : Int} (h0 : minWhole ≤ x) (hd : (scale : Int) ∣ z) (h1 : z ≤ x)
    (h2 : x < z + scale) : floorS x = .ok z := by
  rw [floorS, if_neg (by omega)]
  obtain ⟨q, hq⟩ := hd
  obtain ⟨k, e1, h3, h4, h5, h6⟩ := trem_scale x
  generalize trem x scale = m at *
  rw [scale_int] at hq h2
  by_cases hm : m = 0
  · simp only [hm, if_true]
    congr 1
    omega
  · simp only [hm, if_false]
    by_cases hx : x < 0
    · rw [if_pos hx]; congr 1; have := h4 (by omega); rw [scale_int]; omega
    · rw [if_neg hx]; congr 1; have := h3 (by omega); omega

/-- Ceil answers the least whole value that is not below x (41 R105). -/
theorem ceilS_unique {x z : Int} (h0 : x ≤ maxWhole) (hd : (scale : Int) ∣ z) (h1 : x ≤ z)
    (h2 : z < x + scale) : ceilS x = .ok z := by
  rw [ceilS, if_neg (by omega)]
  obtain ⟨q, hq⟩ := hd
  obtain ⟨k, e1, h3, h4, h5, h6⟩ := trem_scale x
  generalize trem x scale = m at *
  rw [scale_int] at hq h2
  by_cases hm : m = 0
  · simp only [hm, if_true]
    congr 1
    omega
  · simp only [hm, if_false]
    by_cases hx : 0 < x
    · rw [if_pos hx]; congr 1; have := h3 (by omega); rw [scale_int]; omega
    · rw [if_neg hx]; congr 1; have := h4 (by omega); omega

/-- A whole value above x and below MAX_VALUE is at most MAX_WHOLE, and the other way round, so FLOOR
and CEIL answer representable values (41 R104, R105). -/
theorem floorS_ge {x z : Int} (h0 : minWhole ≤ x) (hd : (scale : Int) ∣ z) (h2 : x < z + scale) :
    minWhole ≤ z := by
  have hw : minWhole =
      1000000000000000000 * -57896044618658097711785492504343953926634992332820282019728 := by decide
  obtain ⟨q, hq⟩ := hd
  rw [scale_int] at hq h2
  omega

theorem ceilS_le {x z : Int} (h0 : x ≤ maxWhole) (hd : (scale : Int) ∣ z) (h2 : z < x + scale) :
    z ≤ maxWhole := by
  have hw : maxWhole =
      1000000000000000000 * 57896044618658097711785492504343953926634992332820282019728 := by decide
  obtain ⟨q, hq⟩ := hd
  rw [scale_int] at hq h2
  omega

end Sys2Proof.Machine
end

