-- ==== Sys2Proof/Laws/Exp2Core.lean ====
section
/-! SUPPORT. The computation of the default EXP2_CORE is exact: it is the floor of the real
exponential (43_transcendental R152; log 3). -/
namespace Sys2Proof.Machine

/-- One square-root step keeps the error below 4: `c` is 1 or 2, the doubling of the step. -/
theorem isqrt_step {P t : Nat} {x c : ℝ} (hP : (P : ℝ) ≤ t) (hP0 : 0 < P) (h1 : (t : ℝ) ≤ x)
    (h2 : x < t + 4) {b : Nat} (hb : b = 1 ∨ b = 2) (hc : c = b) :
    (P : ℝ) ≤ isqrt (t * P * b) ∧ (isqrt (t * P * b) : ℝ) ≤ Real.sqrt (x * P * c) ∧
      Real.sqrt (x * P * c) < isqrt (t * P * b) + 4 := by
  have hPr : (0 : ℝ) < P := by exact_mod_cast hP0
  have hPt : P ≤ t := by exact_mod_cast hP
  have hbpos : 1 ≤ b := by omega
  set r := isqrt (t * P * b) with hr
  have hlo : r * r ≤ t * P * b := isqrt_sq_le _
  have hhi : t * P * b < (r + 1) * (r + 1) := lt_isqrt_succ_sq _
  have hPr' : P ≤ r := by
    have h3 : P * P < (r + 1) * (r + 1) :=
      lt_of_le_of_lt (by nlinarith [Nat.mul_le_mul_right P hPt]) hhi
    have := Nat.mul_self_lt_mul_self_iff.1 h3
    omega
  have hcpos : (0 : ℝ) < c := by rw [hc]; exact_mod_cast hbpos
  refine ⟨by exact_mod_cast hPr', ?_, ?_⟩
  · apply Real.le_sqrt_of_sq_le
    have h3 : ((r : ℝ)) * r ≤ t * P * b := by exact_mod_cast hlo
    have h4 : (t : ℝ) * P * b ≤ x * P * c := by
      rw [hc]
      have : (0 : ℝ) ≤ P * b := by positivity
      nlinarith
    nlinarith
  · rw [Real.sqrt_lt' (by positivity)]
    have h3 : (t : ℝ) * P * b + 1 ≤ (r + 1) * (r + 1) := by exact_mod_cast hhi
    have h4 : x * P * c < (t + 4) * P * b := by
      rw [hc]
      have : (0 : ℝ) < P * b := by
        have : (0 : ℝ) < b := by exact_mod_cast hbpos
        positivity
      nlinarith
    have h5 : (4 : ℝ) * P * b ≤ 6 * (r + 1) := by
      rcases hb with rfl | rfl
      · have : (P : ℝ) ≤ r := by exact_mod_cast hPr'
        push_cast
        nlinarith
      · have h6 : (P : ℝ) * P * 2 ≤ (r + 1) * (r + 1) := by
          have h7 : (P : ℝ) * P ≤ t * P := by nlinarith
          push_cast at h3
          nlinarith
        push_cast
        have h8 : (8 * (P : ℝ)) ^ 2 ≤ (6 * ((r : ℝ) + 1)) ^ 2 := by nlinarith [sq_nonneg (P : ℝ)]
        have h9 := (pow_le_pow_iff_left₀ (by positivity) (by positivity) two_ne_zero).1 h8
        linarith
    nlinarith

/-- The value of a chain of n square-root steps brackets `2^(p + (e + f) / 2^n)`, for the n low bits
of f. -/
theorem exp2Frac_bounds (p : Nat) : ∀ (n f t : Nat) (e : ℝ), (2 : ℝ) ^ p ≤ t →
    (t : ℝ) ≤ 2 ^ ((p : ℝ) + e) → (2 : ℝ) ^ ((p : ℝ) + e) < t + 4 →
    (2 : ℝ) ^ p ≤ exp2Frac p n f t ∧
    (exp2Frac p n f t : ℝ) ≤ 2 ^ ((p : ℝ) + (e + (f % 2 ^ n : Nat)) / 2 ^ n) ∧
    (2 : ℝ) ^ ((p : ℝ) + (e + (f % 2 ^ n : Nat)) / 2 ^ n) < exp2Frac p n f t + 4 := by
  intro n
  induction n with
  | zero =>
    intro f t e h0 h1 h2
    simp only [pow_zero, Nat.mod_one, Nat.cast_zero, add_zero, div_one, exp2Frac]
    exact ⟨h0, h1, h2⟩
  | succ n ih =>
    intro f t e h0 h1 h2
    rw [exp2Frac]
    have hb : (if f % 2 = 1 then 2 else 1) = 1 ∨ (if f % 2 = 1 then 2 else 1) = 2 := by
      split <;> simp
    have hP : ((2 ^ p : Nat) : ℝ) ≤ t := by exact_mod_cast h0
    obtain ⟨g0, g1, g2⟩ := isqrt_step (c := ((if f % 2 = 1 then 2 else 1 : Nat) : ℝ)) hP
      (by positivity) h1 h2 hb rfl
    have hsqrt : Real.sqrt ((2 : ℝ) ^ ((p : ℝ) + e) * ((2 ^ p : Nat) : ℝ) *
        ((if f % 2 = 1 then 2 else 1 : Nat) : ℝ)) =
        2 ^ ((p : ℝ) + (e + (f % 2 : Nat)) / 2) := by
      have hc : ((if f % 2 = 1 then 2 else 1 : Nat) : ℝ) = 2 ^ (((f % 2 : Nat)) : ℝ) := by
        rcases Nat.mod_two_eq_zero_or_one f with h | h <;> simp [h]
      rw [hc, Nat.cast_pow, Nat.cast_ofNat, ← Real.rpow_natCast 2 p, ← Real.rpow_add two_pos,
        ← Real.rpow_add two_pos, Real.sqrt_eq_rpow, ← Real.rpow_mul two_pos.le]
      congr 1
      ring
    rw [hsqrt] at g1 g2
    rw [Nat.cast_pow, Nat.cast_ofNat] at g0
    have := ih (f / 2) _ _ g0 g1 g2
    have hexp : ((e + (f % 2 : Nat)) / 2 + ((f / 2) % 2 ^ n : Nat)) / 2 ^ n =
        (e + (f % 2 ^ (n + 1) : Nat)) / (2 : ℝ) ^ (n + 1) := by
      have h3 : f % 2 ^ (n + 1) = f % 2 + 2 * (f / 2 % 2 ^ n) := by
        rw [pow_succ', Nat.mod_mul]
      rw [h3]
      push_cast
      field_simp
      ring
    rwa [hexp] at this

/-- The real value the default EXP2_CORE rounds down: `2^(m / 2^64) * SCALE` (43 R152). -/
noncomputable def exp2Real (m : Nat) : ℝ := scale * 2 ^ ((m : ℝ) / 2 ^ 64)

theorem exp2Real_split (m : Nat) :
    exp2Real m = scale * 2 ^ (m / 2 ^ 64) * 2 ^ (((m % 2 ^ 64 : Nat) : ℝ) / 2 ^ 64) := by
  unfold exp2Real
  have h : (m : ℝ) / 2 ^ 64 = ((m / 2 ^ 64 : Nat) : ℝ) + ((m % 2 ^ 64 : Nat) : ℝ) / 2 ^ 64 := by
    have h1 : (m : ℝ) = 2 ^ 64 * ((m / 2 ^ 64 : Nat) : ℝ) + ((m % 2 ^ 64 : Nat) : ℝ) := by
      have := Nat.div_add_mod m (2 ^ 64)
      exact_mod_cast this.symm
    rw [eq_comm, ← sub_eq_zero]
    conv_lhs => rw [h1]
    field_simp
    ring
  rw [h, Real.rpow_add two_pos, Real.rpow_natCast]
  ring

/-- Both bounds of one precision: the lower one is at most the floor, and less than
`4 * SCALE * 2^k / 2^p` of the real value is lost; the upper one is at least the floor. -/
theorem exp2Bound_spec (p m : Nat) :
    (exp2Bound p m 0 : ℝ) ≤ exp2Real m ∧ exp2Real m < exp2Bound p m 4 + 1 ∧
      exp2Real m - scale * 2 ^ (m / 2 ^ 64) * 4 / 2 ^ p < exp2Bound p m 0 + 1 := by
  obtain ⟨h0, h1, h2⟩ := exp2Frac_bounds p 64 (m % 2 ^ 64) (2 ^ p) 0 (by push_cast; rfl)
    (by rw [add_zero, Real.rpow_natCast]; push_cast; rfl)
    (by rw [add_zero, Real.rpow_natCast]; push_cast; linarith)
  rw [Nat.mod_mod, zero_add, Real.rpow_add two_pos, Real.rpow_natCast] at h1 h2
  have hA : (0 : ℝ) < scale * 2 ^ (m / 2 ^ 64) := by
    have : (0 : ℝ) < scale := by exact_mod_cast scale_pos
    positivity
  have hp : (0 : ℝ) < 2 ^ p := by positivity
  set t := exp2Frac p 64 (m % 2 ^ 64) (2 ^ p) with ht
  have hy : exp2Real m * 2 ^ p = scale * 2 ^ (m / 2 ^ 64) *
      (2 ^ p * 2 ^ (((m % 2 ^ 64 : Nat) : ℝ) / 2 ^ 64)) := by
    rw [exp2Real_split]; ring
  have hup : ∀ c : Nat, (scale * 2 ^ (m / 2 ^ 64) * (t + c) : ℝ) < (exp2Bound p m c + 1) * 2 ^ p := by
    intro c
    have := Nat.lt_div_mul_add (a := scale * 2 ^ (m / 2 ^ 64) * (t + c)) (b := 2 ^ p) (by positivity)
    have h3 : scale * 2 ^ (m / 2 ^ 64) * (t + c) < (exp2Bound p m c + 1) * 2 ^ p := by
      unfold exp2Bound
      rw [← ht]
      linarith
    exact_mod_cast h3
  refine ⟨?_, ?_, ?_⟩
  · have h3 : exp2Bound p m 0 * 2 ^ p ≤ scale * 2 ^ (m / 2 ^ 64) * t := Nat.div_mul_le_self _ _
    have h4 : (exp2Bound p m 0 : ℝ) * 2 ^ p ≤ scale * 2 ^ (m / 2 ^ 64) * t := by exact_mod_cast h3
    have h5 : (exp2Bound p m 0 : ℝ) * 2 ^ p ≤ exp2Real m * 2 ^ p := by
      rw [hy]; exact h4.trans (mul_le_mul_of_nonneg_left h1 hA.le)
    exact le_of_mul_le_mul_right h5 hp
  · have h4 := hup 4
    have h5 : exp2Real m * 2 ^ p < (exp2Bound p m 4 + 1) * 2 ^ p := by
      rw [hy]
      refine lt_trans (mul_lt_mul_of_pos_left h2 hA) ?_
      exact_mod_cast h4
    exact lt_of_mul_lt_mul_right h5 hp.le
  · have h4 := hup 0
    have h5 : (exp2Real m - scale * 2 ^ (m / 2 ^ 64) * 4 / 2 ^ p) * 2 ^ p <
        (exp2Bound p m 0 + 1) * 2 ^ p := by
      rw [sub_mul, hy, div_mul_cancel₀ _ hp.ne']
      have h6 := mul_lt_mul_of_pos_left h2 hA
      push_cast at h4
      nlinarith
    exact lt_of_mul_lt_mul_right h5 hp.le

/-- Where both bounds agree they are the floor. -/
theorem floor_of_bounds_agree {p m : Nat} (h : exp2Bound p m 0 = exp2Bound p m 4) :
    (exp2Bound p m 0 : ℝ) ≤ exp2Real m ∧ exp2Real m < exp2Bound p m 0 + 1 := by
  obtain ⟨h1, h2, -⟩ := exp2Bound_spec p m
  exact ⟨h1, by rw [h]; exact h2⟩

/-! ### How far the real value is from an integer -/

/-- `A * 2^(f / Q)` is no integer when Q does not divide f: the powers of two in its Q-th power do
not add up. -/
theorem pow_ne_of_not_dvd {A n f Q : Nat} (hA : 0 < A) (hf : ¬ Q ∣ f) :
    n ^ Q ≠ A ^ Q * 2 ^ f := by
  intro h
  have hn : n ≠ 0 := by
    rintro rfl
    have hQ : Q ≠ 0 := by
      rintro rfl
      rw [pow_zero, pow_zero, one_mul] at h
      have : f = 0 := by
        by_contra hf0
        have := Nat.one_lt_two_pow hf0
        omega
      exact hf (by simp [this])
    rw [zero_pow hQ] at h
    have : 0 < A ^ Q * 2 ^ f := by positivity
    omega
  apply hf
  have h2 := congrArg (padicValNat 2) h
  rw [padicValNat.mul (by positivity) (by positivity), padicValNat.pow, padicValNat.pow,
    padicValNat.pow, padicValNat_self, mul_one] at h2
  exact ⟨padicValNat 2 n - padicValNat 2 A, by rw [Nat.mul_sub]; omega⟩

/-- A root of an integer that is not itself one lies a definite distance above its floor. -/
theorem root_far_from_floor {y : ℝ} {n Q N : Nat} {B : ℝ} (hy0 : 0 < y) (hyB : y ≤ B) (hB : 1 ≤ B)
    (hn : (n : ℝ) ≤ y) (hpow : y ^ Q = N) (hne : n ^ Q ≠ N) :
    1 ≤ (y - n) * (Q * B ^ Q) := by
  have h1 : (n : ℝ) ^ Q ≤ y ^ Q := pow_le_pow_left₀ (by positivity) hn Q
  have h2 : n ^ Q + 1 ≤ N := by
    have : n ^ Q ≤ N := by
      have : ((n ^ Q : Nat) : ℝ) ≤ N := by rw [← hpow]; exact_mod_cast h1
      exact_mod_cast this
    omega
  have h3 : (n : ℝ) ^ Q + 1 ≤ y ^ Q := by rw [hpow]; exact_mod_cast h2
  have h4 : y ^ Q - n ^ Q = (y - n) * ∑ i ∈ Finset.range Q, y ^ i * (n : ℝ) ^ (Q - 1 - i) :=
    ((Commute.all y (n : ℝ)).mul_geom_sum₂ Q).symm
  have h5 : ∑ i ∈ Finset.range Q, y ^ i * (n : ℝ) ^ (Q - 1 - i) ≤ Q * B ^ Q := by
    rw [← nsmul_eq_mul]
    refine (Finset.sum_le_card_nsmul _ _ (B ^ Q) ?_).trans (by simp)
    intro i hi
    rw [Finset.mem_range] at hi
    calc y ^ i * (n : ℝ) ^ (Q - 1 - i) ≤ B ^ i * B ^ (Q - 1 - i) := by
          apply mul_le_mul (pow_le_pow_left₀ hy0.le hyB i)
            (pow_le_pow_left₀ (by positivity) (hn.trans hyB) _) (by positivity) (by positivity)
      _ = B ^ (i + (Q - 1 - i)) := (pow_add _ _ _).symm
      _ ≤ B ^ Q := pow_le_pow_right₀ hB (by omega)
  have h6 : 0 ≤ y - n := sub_nonneg.2 hn
  nlinarith [mul_le_mul_of_nonneg_left h5 h6]

/-- At a high enough precision the lower bound is the floor. `Q` stands for `2^64`. -/
theorem exp2Bound_floor {p m Q : Nat} (hQ : Q = 2 ^ 64) (hm : m < 192 * Q) (hf : m % Q ≠ 0)
    (hp : 512 * Q ≤ p) :
    (exp2Bound p m 0 : ℝ) ≤ exp2Real m ∧ exp2Real m < exp2Bound p m 0 + 1 := by
  obtain ⟨h1, -, h3⟩ := exp2Bound_spec p m
  refine ⟨h1, ?_⟩
  rw [← hQ] at h3
  have hQpos : 0 < Q := by rw [hQ]; positivity
  have hf' : ¬ Q ∣ m % Q := fun hd =>
    hf (Nat.eq_zero_of_dvd_of_lt hd (Nat.mod_lt _ hQpos))
  have hs : (0 : ℝ) < scale := by exact_mod_cast scale_pos
  have hsplit := exp2Real_split m
  rw [← hQ] at hsplit
  have hQr : ((2 : ℝ) ^ 64) = (Q : ℝ) := by rw [hQ]; norm_num
  rw [hQr] at hsplit
  have hfr : ((m % Q : Nat) : ℝ) / Q < 1 := by
    rw [div_lt_one (by exact_mod_cast hQpos)]
    exact_mod_cast Nat.mod_lt _ hQpos
  have hf0 : 0 ≤ ((m % Q : Nat) : ℝ) / Q := by positivity
  have hk : m / Q ≤ 191 := by
    have : m / Q < 192 := (Nat.div_lt_iff_lt_mul hQpos).2 hm
    omega
  -- the real value lies between SCALE * 2^k and 2^252
  have hAle : (scale : ℝ) * 2 ^ (m / Q) ≤ 2 ^ 251 := by
    have h4 : (2 : ℝ) ^ (m / Q) ≤ 2 ^ 191 := pow_le_pow_right₀ (by norm_num) hk
    have h5 : (scale : ℝ) ≤ 2 ^ 60 := by
      have : scale ≤ 2 ^ 60 := by decide
      exact_mod_cast this
    calc (scale : ℝ) * 2 ^ (m / Q) ≤ 2 ^ 60 * 2 ^ 191 :=
          mul_le_mul h5 h4 (by positivity) (by positivity)
      _ = 2 ^ 251 := by rw [← pow_add]
  have hA : (0 : ℝ) < scale * 2 ^ (m / Q) := by positivity
  have hyle : exp2Real m ≤ 2 ^ 252 := by
    rw [hsplit]
    have h4 : (2 : ℝ) ^ (((m % Q : Nat) : ℝ) / Q) ≤ 2 := by
      conv_rhs => rw [← Real.rpow_one 2]
      exact Real.rpow_le_rpow_of_exponent_le (by norm_num) hfr.le
    calc (scale : ℝ) * 2 ^ (m / Q) * 2 ^ (((m % Q : Nat) : ℝ) / Q) ≤ 2 ^ 251 * 2 :=
          mul_le_mul hAle h4 (by positivity) (by positivity)
      _ = 2 ^ 252 := by rw [← pow_succ]
  have hy0 : 0 < exp2Real m := by rw [hsplit]; positivity
  -- its Q-th power is an integer
  have hpow : exp2Real m ^ Q = (((scale * 2 ^ (m / Q)) ^ Q * 2 ^ (m % Q) : Nat) : ℝ) := by
    rw [hsplit, mul_pow, ← Real.rpow_natCast (2 ^ _) Q, ← Real.rpow_mul two_pos.le,
      div_mul_cancel₀ _ (by exact_mod_cast hQpos.ne'), Real.rpow_natCast]
    push_cast
    rfl
  set n := ⌊exp2Real m⌋₊ with hn
  have hnle : (n : ℝ) ≤ exp2Real m := Nat.floor_le hy0.le
  have hfar := root_far_from_floor (B := 2 ^ 252) hy0 hyle (by norm_num) hnle hpow
    (pow_ne_of_not_dvd (by positivity [scale_pos]) hf')
  -- so the loss is less than the distance to the floor
  have hloss : scale * 2 ^ (m / Q) * 4 / 2 ^ p ≤ exp2Real m - n := by
    have hD : (0 : ℝ) < Q * (2 ^ 252) ^ Q := by positivity
    have h4 : 1 / (Q * ((2 : ℝ) ^ 252) ^ Q) ≤ exp2Real m - n := by
      rw [div_le_iff₀ hD]; exact hfar
    refine le_trans ?_ h4
    rw [div_le_div_iff₀ (by positivity) hD, one_mul]
    have h5 : (Q : ℝ) ≤ 2 ^ Q := by exact_mod_cast Nat.lt_two_pow_self.le
    calc (scale : ℝ) * 2 ^ (m / Q) * 4 * (Q * (2 ^ 252) ^ Q)
        ≤ 2 ^ 251 * 4 * (2 ^ Q * (2 ^ 252) ^ Q) := by
          apply mul_le_mul (by linarith) _ (by positivity) (by positivity)
          exact mul_le_mul_of_nonneg_right h5 (by positivity)
      _ = 2 ^ (253 + (Q + 252 * Q)) := by
          rw [← pow_mul, pow_add, pow_add, show (2 : ℝ) ^ 251 * 4 = 2 ^ 253 by norm_num]
      _ ≤ 2 ^ p := pow_le_pow_right₀ (by norm_num) (by
          have : 2 ^ 8 ≤ Q := by rw [hQ]; exact Nat.pow_le_pow_right (by decide) (by decide)
          omega)
  have h4 : (n : ℝ) < exp2Bound p m 0 + 1 := by linarith
  have h5 : n ≤ exp2Bound p m 0 := by
    have : n < exp2Bound p m 0 + 1 := by exact_mod_cast h4
    omega
  have h6 : exp2Real m < n + 1 := Nat.lt_floor_add_one _
  have h7 : (n : ℝ) ≤ exp2Bound p m 0 := by exact_mod_cast h5
  linarith

/-- The search ends at the floor when its last precision is at least `512 * 2^64`. -/
theorem exp2Floor_spec {m Q : Nat} (hQ : Q = 2 ^ 64) (hm : m < 192 * Q) (hf : m % Q ≠ 0) :
    ∀ fuel p, 512 * Q ≤ p * 2 ^ fuel →
      (exp2Floor m fuel p : ℝ) ≤ exp2Real m ∧ exp2Real m < exp2Floor m fuel p + 1 := by
  intro fuel
  induction fuel with
  | zero =>
    intro p hp
    exact exp2Bound_floor hQ hm hf (by simpa using hp)
  | succ fuel ih =>
    intro p hp
    rw [exp2Floor]
    by_cases h : exp2Bound p m 0 = exp2Bound p m 4
    · simp only [h, if_true]
      have := floor_of_bounds_agree h
      rwa [h] at this
    · simp only [h, if_false]
      exact ih (2 * p) (by rw [pow_succ] at hp; linarith)

/-- The default EXP2_CORE is the exact floor of the real exponential (43 R152), at every m below
`192 * 2^64`. -/
theorem exp2Exact_floor {m : Nat} (hm : m < 192 * 2 ^ 64) :
    (exp2Exact m : ℝ) ≤ exp2Real m ∧ exp2Real m < exp2Exact m + 1 := by
  unfold exp2Exact
  by_cases hf : m % 2 ^ 64 = 0
  · rw [if_pos hf]
    have h : exp2Real m = ((scale * 2 ^ (m / 2 ^ 64) : Nat) : ℝ) := by
      rw [exp2Real_split, hf]
      push_cast
      simp
    rw [h]
    exact ⟨le_rfl, by linarith⟩
  · rw [if_neg hf]
    exact exp2Floor_spec rfl hm hf 64 512 le_rfl

end Sys2Proof.Machine
end

