-- ==== Sys2Proof/Laws/Flags.lean ====
section
/-! SUPPORT. What each field of STATUS reads after each write of it, said once through the bits. -/
namespace Sys2Proof.Machine

/-- Every bit of a word after a field is replaced. -/
theorem getLsbD_putField (lo n : Nat) (f : BitVec n) (v : Word) (k : Nat) :
    (putField lo n f v).getLsbD k =
      (decide (k < 256) && if lo ≤ k ∧ k < lo + n then f.getLsbD (k - lo) else v.getLsbD k) := by
  unfold putField zext
  by_cases hk : k < 256
  · by_cases h1 : k < lo
    · have h4 : ¬ (lo ≤ k ∧ k < lo + n) := by omega
      simp [hk, h1, h4]
    · by_cases h2 : k < lo + n
      · have h4 : lo ≤ k ∧ k < lo + n := by omega
        have h5 : k - lo < n := by omega
        simp [hk, h1, h4, h5]
      · have h4 : ¬ (lo ≤ k ∧ k < lo + n) := by omega
        have h6 : n ≤ k - lo := by omega
        simp [hk, h1, h4, BitVec.getLsbD_of_ge _ _ h6]
  · have : 256 ≤ k := by omega
    simp [hk, BitVec.getLsbD_of_ge _ _ this]

/-- A word is known by its bits below 256. -/
theorem word_ext {v w : Word} (h : ∀ k, k < 256 → v.getLsbD k = w.getLsbD k) : v = w :=
  BitVec.eq_of_getLsbD_eq h

theorem getLsbD_putLastErr (c : BitVec 2) (v : Word) (k : Nat) :
    (putLastErr c v).getLsbD k = if k < 2 then c.getLsbD k else v.getLsbD k := by
  unfold putLastErr
  rw [getLsbD_putField]
  by_cases hk : k < 256
  · simp [hk]
  · have : ¬ k < 2 := by omega
    simp [hk, this, BitVec.getLsbD_of_ge v k (by omega)]

theorem getLsbD_setResValid (v : Word) (k : Nat) :
    (setResValid v).getLsbD k = if k = 2 then true else v.getLsbD k := by
  unfold setResValid
  rw [getLsbD_putField]
  by_cases h : k = 2
  · subst h; rfl
  · have h4 : ¬ (2 ≤ k ∧ k < 2 + 1) := by omega
    by_cases hk : k < 256
    · rw [if_neg h4]; simp [h, hk]
    · simp [h, hk, BitVec.getLsbD_of_ge v k (by omega)]

theorem getLsbD_putLastOp (op : BitVec 8) (v : Word) (k : Nat) :
    (putLastOp op v).getLsbD k = if 16 ≤ k ∧ k < 24 then op.getLsbD (k - 16) else v.getLsbD k := by
  unfold putLastOp
  rw [getLsbD_putField]
  by_cases hk : k < 256
  · simp [hk]
  · have : ¬ (16 ≤ k ∧ k < 24) := by omega
    simp [hk, this, BitVec.getLsbD_of_ge v k (by omega)]

theorem getLsbD_setSticky (e : CmdError) (v : Word) (k : Nat) :
    (setSticky e v).getLsbD k = if k = stickyBit e then true else v.getLsbD k := by
  unfold setSticky
  rw [getLsbD_putField]
  by_cases h : k = stickyBit e
  · subst h; cases e <;> rfl
  · have h4 : ¬ (stickyBit e ≤ k ∧ k < stickyBit e + 1) := by omega
    by_cases hk : k < 256
    · rw [if_neg h4]; simp [h, hk]
    · simp [h, hk, BitVec.getLsbD_of_ge v k (by omega)]

theorem getLsbD_stickyMask (k : Nat) : stickyMask.getLsbD k = decide (8 ≤ k ∧ k ≤ 10) := by
  by_cases hk : k < 11
  · interval_cases k <;> rfl
  · have h : stickyMask = BitVec.setWidth 256 (0x700 : BitVec 11) := by decide
    rw [h, BitVec.getLsbD_setWidth, BitVec.getLsbD_of_ge _ _ (by omega : 11 ≤ k)]
    have : ¬ (8 ≤ k ∧ k ≤ 10) := by omega
    simp [this]

theorem getLsbD_clearSticky (w v : Word) (k : Nat) :
    (clearSticky w v).getLsbD k =
      (v.getLsbD k && !(w.getLsbD k && decide (8 ≤ k ∧ k ≤ 10))) := by
  unfold clearSticky
  rw [BitVec.getLsbD_and, BitVec.getLsbD_not, BitVec.getLsbD_and, getLsbD_stickyMask]
  by_cases hk : k < 256
  · simp [hk]
  · simp [BitVec.getLsbD_of_ge v k (by omega)]

/-- Every bit of STATUS after a command that succeeds (60_exceptions R205, 30_encoding R64). -/
theorem getLsbD_statusOk (op : BitVec 8) (v : Word) (k : Nat) :
    (statusOk (putLastOp op v)).getLsbD k =
      if k < 2 then false else if k = 2 then true
      else if 16 ≤ k ∧ k < 24 then op.getLsbD (k - 16) else v.getLsbD k := by
  unfold statusOk
  rw [getLsbD_setResValid, getLsbD_putLastErr, getLsbD_putLastOp]
  by_cases h2 : k < 2
  · have : k ≠ 2 := by omega
    simp [h2, this]
  · simp [h2]

/-- Every bit of STATUS after a command that raises (60_exceptions R206, 30_encoding R64). -/
theorem getLsbD_statusRaise (e : CmdError) (op : BitVec 8) (v : Word) (k : Nat) :
    (statusRaise e (putLastOp op v)).getLsbD k =
      if k < 2 then (errCode e).getLsbD k else if k = stickyBit e then true
      else if 16 ≤ k ∧ k < 24 then op.getLsbD (k - 16) else v.getLsbD k := by
  unfold statusRaise
  rw [getLsbD_setSticky, getLsbD_putLastErr, getLsbD_putLastOp]
  by_cases h2 : k < 2
  · have : k ≠ stickyBit e := by cases e <;> simp [stickyBit, errCode] <;> omega
    simp [h2, this]
  · simp [h2]

/-- LAST_ERR is known by its two bits. -/
theorem lastErr_eq_iff (v : Word) (c : BitVec 2) :
    lastErr v = c ↔ ∀ k, k < 2 → v.getLsbD k = c.getLsbD k := by
  unfold lastErr
  constructor
  · rintro rfl k hk
    simp [hk]
  · intro h
    apply BitVec.eq_of_getLsbD_eq
    intro k hk
    simp [hk, h k hk]

/-- LAST_OP is known by its eight bits. -/
theorem lastOp_eq_iff (v : Word) (c : BitVec 8) :
    lastOp v = c ↔ ∀ k, k < 8 → v.getLsbD (16 + k) = c.getLsbD k := by
  unfold lastOp
  constructor
  · rintro rfl k hk
    simp [hk]
  · intro h
    apply BitVec.eq_of_getLsbD_eq
    intro k hk
    simp [hk, h k hk]

@[simp] theorem lastErr_statusOk (op : BitVec 8) (v : Word) :
    lastErr (statusOk (putLastOp op v)) = 0 := by
  rw [lastErr_eq_iff]
  intro k hk
  simp [getLsbD_statusOk, hk]

@[simp] theorem resValid_statusOk (v : Word) : resValid (statusOk v) = true := by
  unfold resValid statusOk
  rw [getLsbD_setResValid, if_pos rfl]

@[simp] theorem lastOp_statusOk (op : BitVec 8) (v : Word) :
    lastOp (statusOk (putLastOp op v)) = op := by
  rw [lastOp_eq_iff]
  intro k hk
  have h1 : ¬ 16 + k < 2 := by omega
  have h2 : 16 + k ≠ 2 := by omega
  have h3 : 16 + k < 24 := by omega
  simp [getLsbD_statusOk, h1, h2, h3]

@[simp] theorem lastErr_statusRaise (e : CmdError) (v : Word) :
    lastErr (statusRaise e v) = errCode e := by
  rw [lastErr_eq_iff]
  intro k hk
  have : k ≠ stickyBit e := by cases e <;> simp [stickyBit, errCode] <;> omega
  simp [statusRaise, getLsbD_setSticky, getLsbD_putLastErr, hk, this]

@[simp] theorem resValid_statusRaise (e : CmdError) (v : Word) :
    resValid (statusRaise e v) = resValid v := by
  have : 2 ≠ stickyBit e := by cases e <;> simp [stickyBit, errCode]
  unfold resValid statusRaise
  rw [getLsbD_setSticky, if_neg this, getLsbD_putLastErr, if_neg (by decide)]

@[simp] theorem resValid_putLastOp (op : BitVec 8) (v : Word) :
    resValid (putLastOp op v) = resValid v := by
  unfold resValid
  rw [getLsbD_putLastOp, if_neg (by decide)]

@[simp] theorem lastOp_statusRaise (e : CmdError) (op : BitVec 8) (v : Word) :
    lastOp (statusRaise e (putLastOp op v)) = op := by
  rw [lastOp_eq_iff]
  intro k hk
  have h1 : ¬ 16 + k < 2 := by omega
  have h2 : 16 + k ≠ stickyBit e := by cases e <;> simp [stickyBit, errCode] <;> omega
  have h3 : 16 + k < 24 := by omega
  simp [getLsbD_statusRaise, h1, h2, h3]

@[simp] theorem lastErr_clearSticky (w v : Word) : lastErr (clearSticky w v) = lastErr v := by
  rw [lastErr_eq_iff]
  intro k hk
  have : ¬ 8 ≤ k := by omega
  simp [getLsbD_clearSticky, lastErr, hk, this]

@[simp] theorem resValid_clearSticky (w v : Word) : resValid (clearSticky w v) = resValid v := by
  unfold resValid
  rw [getLsbD_clearSticky]
  simp

@[simp] theorem lastOp_clearSticky (w v : Word) : lastOp (clearSticky w v) = lastOp v := by
  rw [lastOp_eq_iff]
  intro k hk
  have : ¬ 16 + k ≤ 10 := by omega
  simp [getLsbD_clearSticky, lastOp, hk, this]

/-- The bits of STATUS that hold state (10_state R25). -/
def implementedBit (k : Nat) : Bool := k < 3 || (8 ≤ k && k ≤ 10) || (16 ≤ k && k < 24)

theorem getLsbD_statusImplemented (k : Nat) : statusImplemented.getLsbD k = implementedBit k := by
  by_cases hk : k < 24
  · interval_cases k <;> rfl
  · have h : statusImplemented = BitVec.setWidth 256 (0xff0707 : BitVec 24) := by decide
    rw [h, BitVec.getLsbD_setWidth, BitVec.getLsbD_of_ge _ _ (by omega : 24 ≤ k)]
    have h1 : ¬ k < 3 := by omega
    have h2 : ¬ k ≤ 10 := by omega
    simp [implementedBit, h1, h2, hk]

/-- The reserved bits are 0 exactly when every bit that holds no state is 0 (10_state R30). -/
theorem reservedClear_iff (v : Word) :
    reservedClear v = true ↔ ∀ k, implementedBit k = false → v.getLsbD k = false := by
  unfold reservedClear
  rw [beq_iff_eq]
  constructor
  · intro h k hk
    by_cases hk' : k < 256
    · have := congrArg (fun x : Word => x.getLsbD k) h
      simp only [BitVec.getLsbD_and, BitVec.getLsbD_not, getLsbD_statusImplemented, hk] at this
      simpa [hk'] using this
    · exact BitVec.getLsbD_of_ge v k (by omega)
  · intro h
    apply word_ext
    intro k hk
    rw [BitVec.getLsbD_and, BitVec.getLsbD_not, getLsbD_statusImplemented]
    cases hb : implementedBit k
    · simp [h k hb]
    · simp

theorem reservedClear_statusOk {v : Word} (op : BitVec 8) (h : reservedClear v = true) :
    reservedClear (statusOk (putLastOp op v)) = true := by
  rw [reservedClear_iff] at h ⊢
  intro k hk
  have h1 : ¬ k < 2 := by intro hc; simp [implementedBit] at hk; omega
  have h2 : k ≠ 2 := by rintro rfl; simp [implementedBit] at hk
  have h3 : ¬ (16 ≤ k ∧ k < 24) := by intro hc; simp [implementedBit] at hk; omega
  simp [getLsbD_statusOk, h1, h2, h3, h k hk]

theorem reservedClear_statusRaise {v : Word} (e : CmdError) (op : BitVec 8)
    (h : reservedClear v = true) : reservedClear (statusRaise e (putLastOp op v)) = true := by
  rw [reservedClear_iff] at h ⊢
  intro k hk
  have h1 : ¬ k < 2 := by intro hc; simp [implementedBit] at hk; omega
  have h2 : k ≠ stickyBit e := by
    rintro rfl
    cases e <;> simp [implementedBit, stickyBit, errCode] at hk
  have h3 : ¬ (16 ≤ k ∧ k < 24) := by intro hc; simp [implementedBit] at hk; omega
  simp [getLsbD_statusRaise, h1, h2, h3, h k hk]

theorem reservedClear_clearSticky {v : Word} (w : Word) (h : reservedClear v = true) :
    reservedClear (clearSticky w v) = true := by
  rw [reservedClear_iff] at h ⊢
  intro k hk
  simp [getLsbD_clearSticky, h k hk]

theorem reservedClear_zero : reservedClear 0 = true := by decide

end Sys2Proof.Machine
end

