-- ==== Sys2Proof/Laws/MulDiv.lean ====
section
/-! SUPPORT. What the wide multiply-divide and its signed dispatch answer (40_muldiv R80 to R85). -/
namespace Sys2Proof.Machine

/-- The answer of a magnitude `q` that must fit in 256 bits. -/
def fit (q : Nat) : Except CmdError Nat := if maxUnsigned < q then .error .overflow else .ok q

theorem fit_ok {q : Nat} (h : q < 2 ^ 256) : fit q = .ok q := by
  rw [fit, if_neg (by rw [maxUnsigned_eq]; omega)]

theorem fit_overflow {q : Nat} (h : 2 ^ 256 ≤ q) : fit q = .error .overflow := by
  rw [fit, if_pos (by rw [maxUnsigned_eq]; omega)]

/-- MulDivU by a zero divisor (40 R81). -/
@[simp] theorem mulDivU_zero (a b : Nat) : mulDivU a b 0 = .error .domain := rfl

/-- MulDivU answers the floor of the exact quotient, where that fits (40 R81). -/
theorem mulDivU_eq {a b c : Nat} (hc : 0 < c) : mulDivU a b c = fit (a * b / c) := by
  rw [mulDivU, if_neg (by omega), fit]

/-- The rounded quotient of MulDivFpU, as one floor (40 R85). -/
theorem half_up_eq (p : Nat) :
    (if halfScale ≤ p % scale then p / scale + 1 else p / scale) = (2 * p + scale) / (2 * scale) := by
  have hs : scale = 1000000000000000000 := rfl
  have hh : halfScale = 500000000000000000 := rfl
  rw [hs, hh]
  split <;> omega

/-- MulDivFpU answers the quotient by SCALE rounded half up, where that fits (40 R82). -/
theorem mulDivFpU_eq (a b : Nat) : mulDivFpU a b = fit ((2 * (a * b) + scale) / (2 * scale)) := by
  rw [mulDivFpU]
  simp only [half_up_eq]
  rfl

theorem mulDivFpU_comm (a b : Nat) : mulDivFpU a b = mulDivFpU b a := by
  rw [mulDivFpU_eq, mulDivFpU_eq, Nat.mul_comm a b]

/-- `signedOf` answers the signed value where the magnitude is at most MAX_VALUE (40 R83). -/
theorem signedOf_ok {r : Nat} (neg : Bool) (h : r < 2 ^ 255) : signedOf neg r = .ok (applySign r neg) := by
  rw [signedOf, if_neg (by rw [maxValue_eq]; omega)]

theorem signedOf_overflow {r : Nat} (neg : Bool) (h : 2 ^ 255 ≤ r) :
    signedOf neg r = .error .overflow := by
  rw [signedOf, if_pos (by rw [maxValue_eq]; omega)]

/-- A magnitude that must fit 256 bits and then the signed range fails exactly when it exceeds
MAX_VALUE: the two overflows are one (40 R83, R84). -/
theorem fit_bind_signedOf (q : Nat) (neg : Bool) :
    (fit q).bind (signedOf neg) =
      if q < 2 ^ 255 then .ok (applySign q neg) else .error .overflow := by
  by_cases h : q < 2 ^ 256
  · rw [fit_ok h, Except.bind]
    by_cases h2 : q < 2 ^ 255
    · rw [signedOf_ok _ h2, if_pos h2]
    · rw [signedOf_overflow _ (by omega), if_neg h2]
  · rw [fit_overflow (by omega), Except.bind, if_neg (by omega)]

theorem mulS_domain {x y : Int} (h : x = -(2 ^ 255) ∨ y = -(2 ^ 255)) : mulS x y = .error .domain := by
  rw [mulS, if_pos (by rw [minValue_eq]; exact h)]

/-- MulS (40 R83, R85): the magnitude of the product over SCALE rounded half up, the sign put back. -/
theorem mulS_eq {x y : Int} (hx : x ≠ -(2 ^ 255)) (hy : y ≠ -(2 ^ 255)) :
    mulS x y =
      if (2 * (x.natAbs * y.natAbs) + scale) / (2 * scale) < 2 ^ 255 then
        .ok (applySign ((2 * (x.natAbs * y.natAbs) + scale) / (2 * scale)) (isNeg x != isNeg y))
      else .error .overflow := by
  rw [mulS, if_neg (by rw [minValue_eq]; tauto), mulDivFpU_eq, fit_bind_signedOf]

theorem divS_domain {x y : Int} (h : x = -(2 ^ 255) ∨ y = -(2 ^ 255)) : divS x y = .error .domain := by
  rw [divS, if_pos (by rw [minValue_eq]; exact h)]

theorem divS_zero (x : Int) : divS x 0 = .error .domain := by
  rw [divS]
  split
  · rfl
  · rfl

/-- DivS (40 R84): the floor of the magnitudes' quotient, the sign put back. -/
theorem divS_eq {x y : Int} (hx : x ≠ -(2 ^ 255)) (hy : y ≠ -(2 ^ 255)) (h0 : y ≠ 0) :
    divS x y =
      if x.natAbs * scale / y.natAbs < 2 ^ 255 then
        .ok (applySign (x.natAbs * scale / y.natAbs) (isNeg x != isNeg y))
      else .error .overflow := by
  rw [divS, if_neg (by rw [minValue_eq]; tauto), mulDivU_eq (Int.natAbs_pos.2 h0), fit_bind_signedOf]

@[simp] theorem natAbs_applySign (r : Nat) (neg : Bool) : (applySign r neg).natAbs = r := by
  cases neg <;> simp [applySign]

@[simp] theorem applySign_zero (neg : Bool) : applySign 0 neg = 0 := by
  cases neg <;> rfl

/-- The quotient with its sign put back is the truncated quotient (40 R85). -/
theorem applySign_div_eq_tdiv (x y : Int) :
    applySign (x.natAbs * scale / y.natAbs) (isNeg x != isNeg y) = (x * scale).tdiv y := by
  rcases Int.natAbs_eq x with hx | hx <;> rcases Int.natAbs_eq y with hy | hy
  all_goals
    by_cases hx0 : x.natAbs = 0
    · have : x = 0 := Int.natAbs_eq_zero.1 hx0
      subst this
      simp
    · by_cases hy0 : y.natAbs = 0
      · have : y = 0 := Int.natAbs_eq_zero.1 hy0
        subst this
        simp
      · generalize x.natAbs = a at *
        generalize y.natAbs = b at *
        subst hx hy
        simp only [applySign, isNeg]
        have ha : 0 < a := Nat.pos_of_ne_zero hx0
        have hb : 0 < b := Nat.pos_of_ne_zero hy0
        have e1 : ¬ (a : Int) < 0 := by omega
        have e2 : ¬ (b : Int) < 0 := by omega
        have key : ((a : Int) * scale).tdiv b = ((a * scale / b : Nat) : Int) := by
          rw [← Nat.cast_mul, ← Int.ofNat_tdiv]
        simp [e1, e2, ha, hb, Int.neg_tdiv, Int.tdiv_neg, key]

end Sys2Proof.Machine
end

