-- ==== Sys2Proof/Laws/State.lean ====
section
/-! SUPPORT. Every field of the state after every update of it, so that no later proof unfolds a
record update. -/
namespace Sys2Proof.Machine

/-! ### `noteOp` -/

@[simp] theorem noteOp_opa (op : BitVec 8) (s : State) : (noteOp op s).opa = s.opa := rfl
@[simp] theorem noteOp_opb (op : BitVec 8) (s : State) : (noteOp op s).opb = s.opb := rfl
@[simp] theorem noteOp_opc (op : BitVec 8) (s : State) : (noteOp op s).opc = s.opc := rfl
@[simp] theorem noteOp_res (op : BitVec 8) (s : State) : (noteOp op s).res = s.res := rfl
@[simp] theorem noteOp_status (op : BitVec 8) (s : State) : (noteOp op s).status = putLastOp op s.status := rfl
@[simp] theorem noteOp_h (op : BitVec 8) (s : State) : (noteOp op s).h = s.h := rfl
@[simp] theorem noteOp_pc (op : BitVec 8) (s : State) : (noteOp op s).pc = s.pc := rfl
@[simp] theorem noteOp_program (op : BitVec 8) (s : State) : (noteOp op s).program = s.program := rfl
@[simp] theorem noteOp_resets (op : BitVec 8) (s : State) : (noteOp op s).resets = s.resets := rfl

/-! ### `ok` -/

@[simp] theorem ok_opa (n : Int) (s : State) : (ok n s).opa = s.opa := rfl
@[simp] theorem ok_opb (n : Int) (s : State) : (ok n s).opb = s.opb := rfl
@[simp] theorem ok_opc (n : Int) (s : State) : (ok n s).opc = s.opc := rfl
@[simp] theorem ok_res (n : Int) (s : State) : (ok n s).res = enc n := rfl
@[simp] theorem ok_status (n : Int) (s : State) : (ok n s).status = statusOk s.status := rfl
@[simp] theorem ok_h (n : Int) (s : State) : (ok n s).h = s.h := rfl
@[simp] theorem ok_pc (n : Int) (s : State) : (ok n s).pc = s.pc := rfl
@[simp] theorem ok_program (n : Int) (s : State) : (ok n s).program = s.program := rfl
@[simp] theorem ok_resets (n : Int) (s : State) : (ok n s).resets = s.resets := rfl

/-! ### `raiseErr` -/

@[simp] theorem raiseErr_opa (e : CmdError) (s : State) : (raiseErr e s).opa = s.opa := rfl
@[simp] theorem raiseErr_opb (e : CmdError) (s : State) : (raiseErr e s).opb = s.opb := rfl
@[simp] theorem raiseErr_opc (e : CmdError) (s : State) : (raiseErr e s).opc = s.opc := rfl
@[simp] theorem raiseErr_res (e : CmdError) (s : State) : (raiseErr e s).res = s.res := rfl
@[simp] theorem raiseErr_status (e : CmdError) (s : State) : (raiseErr e s).status = statusRaise e s.status := rfl
@[simp] theorem raiseErr_h (e : CmdError) (s : State) : (raiseErr e s).h = s.h := rfl
@[simp] theorem raiseErr_pc (e : CmdError) (s : State) : (raiseErr e s).pc = s.pc := rfl
@[simp] theorem raiseErr_program (e : CmdError) (s : State) : (raiseErr e s).program = s.program := rfl
@[simp] theorem raiseErr_resets (e : CmdError) (s : State) : (raiseErr e s).resets = s.resets := rfl

/-! ### `setH` -/

@[simp] theorem setH_opa (r : Fin 8) (w : Word) (s : State) : (setH r w s).opa = s.opa := rfl
@[simp] theorem setH_opb (r : Fin 8) (w : Word) (s : State) : (setH r w s).opb = s.opb := rfl
@[simp] theorem setH_opc (r : Fin 8) (w : Word) (s : State) : (setH r w s).opc = s.opc := rfl
@[simp] theorem setH_res (r : Fin 8) (w : Word) (s : State) : (setH r w s).res = s.res := rfl
@[simp] theorem setH_status (r : Fin 8) (w : Word) (s : State) : (setH r w s).status = s.status := rfl
@[simp] theorem setH_h (r : Fin 8) (w : Word) (s : State) : (setH r w s).h = s.h.set r w := rfl
@[simp] theorem setH_pc (r : Fin 8) (w : Word) (s : State) : (setH r w s).pc = s.pc := rfl
@[simp] theorem setH_program (r : Fin 8) (w : Word) (s : State) : (setH r w s).program = s.program := rfl
@[simp] theorem setH_resets (r : Fin 8) (w : Word) (s : State) : (setH r w s).resets = s.resets := rfl

/-! ### `advance` -/

@[simp] theorem advance_opa (s : State) : (advance s).opa = s.opa := rfl
@[simp] theorem advance_opb (s : State) : (advance s).opb = s.opb := rfl
@[simp] theorem advance_opc (s : State) : (advance s).opc = s.opc := rfl
@[simp] theorem advance_res (s : State) : (advance s).res = s.res := rfl
@[simp] theorem advance_status (s : State) : (advance s).status = s.status := rfl
@[simp] theorem advance_h (s : State) : (advance s).h = s.h := rfl
@[simp] theorem advance_pc (s : State) : (advance s).pc = s.pc + 1 := rfl
@[simp] theorem advance_program (s : State) : (advance s).program = s.program := rfl
@[simp] theorem advance_resets (s : State) : (advance s).resets = s.resets := rfl

/-! ### `jump` -/

@[simp] theorem jump_opa (target : Nat) (s : State) : (jump target s).opa = s.opa := rfl
@[simp] theorem jump_opb (target : Nat) (s : State) : (jump target s).opb = s.opb := rfl
@[simp] theorem jump_opc (target : Nat) (s : State) : (jump target s).opc = s.opc := rfl
@[simp] theorem jump_res (target : Nat) (s : State) : (jump target s).res = s.res := rfl
@[simp] theorem jump_status (target : Nat) (s : State) : (jump target s).status = s.status := rfl
@[simp] theorem jump_h (target : Nat) (s : State) : (jump target s).h = s.h := rfl
@[simp] theorem jump_pc (target : Nat) (s : State) : (jump target s).pc = target := rfl
@[simp] theorem jump_program (target : Nat) (s : State) : (jump target s).program = s.program := rfl
@[simp] theorem jump_resets (target : Nat) (s : State) : (jump target s).resets = s.resets := rfl

/-! ### `resetBlock` -/

@[simp] theorem resetBlock_opa (d : DataReg → Word) (s : State) : (resetBlock d s).opa = d .opa := rfl
@[simp] theorem resetBlock_opb (d : DataReg → Word) (s : State) : (resetBlock d s).opb = d .opb := rfl
@[simp] theorem resetBlock_opc (d : DataReg → Word) (s : State) : (resetBlock d s).opc = d .opc := rfl
@[simp] theorem resetBlock_res (d : DataReg → Word) (s : State) : (resetBlock d s).res = d .res := rfl
@[simp] theorem resetBlock_status (d : DataReg → Word) (s : State) : (resetBlock d s).status = 0 := rfl
@[simp] theorem resetBlock_h (d : DataReg → Word) (s : State) : (resetBlock d s).h = s.h := rfl
@[simp] theorem resetBlock_pc (d : DataReg → Word) (s : State) : (resetBlock d s).pc = s.pc := rfl
@[simp] theorem resetBlock_program (d : DataReg → Word) (s : State) : (resetBlock d s).program = s.program := rfl
@[simp] theorem resetBlock_resets (d : DataReg → Word) (s : State) : (resetBlock d s).resets = s.resets := rfl

/-! ### `loadCommand` -/

@[simp] theorem loadCommand_opa (w : Word) (s : State) : (loadCommand w s).opa = s.opa := rfl
@[simp] theorem loadCommand_opb (w : Word) (s : State) : (loadCommand w s).opb = s.opb := rfl
@[simp] theorem loadCommand_opc (w : Word) (s : State) : (loadCommand w s).opc = s.opc := rfl
@[simp] theorem loadCommand_res (w : Word) (s : State) : (loadCommand w s).res = s.res := rfl
@[simp] theorem loadCommand_status (w : Word) (s : State) : (loadCommand w s).status = s.status := rfl
@[simp] theorem loadCommand_h (w : Word) (s : State) : (loadCommand w s).h = s.h := rfl
@[simp] theorem loadCommand_pc (w : Word) (s : State) : (loadCommand w s).pc = 0 := rfl
@[simp] theorem loadCommand_program (w : Word) (s : State) : (loadCommand w s).program = [.memWrite idxCmd accessBytes (.hex w)] := rfl
@[simp] theorem loadCommand_resets (w : Word) (s : State) : (loadCommand w s).resets = [] := rfl

/-! ### `State.reset` -/

@[simp] theorem resetAt_opa (d : DataReg → Word) : (State.resetAt d).opa = d .opa := rfl
@[simp] theorem resetAt_opb (d : DataReg → Word) : (State.resetAt d).opb = d .opb := rfl
@[simp] theorem resetAt_opc (d : DataReg → Word) : (State.resetAt d).opc = d .opc := rfl
@[simp] theorem resetAt_res (d : DataReg → Word) : (State.resetAt d).res = d .res := rfl
@[simp] theorem resetAt_status (d : DataReg → Word) : (State.resetAt d).status = 0 := rfl
@[simp] theorem resetAt_h (d : DataReg → Word) : (State.resetAt d).h = Vector.replicate 8 0 := rfl
@[simp] theorem resetAt_pc (d : DataReg → Word) : (State.resetAt d).pc = 0 := rfl
@[simp] theorem resetAt_program (d : DataReg → Word) : (State.resetAt d).program = [] := rfl
@[simp] theorem resetAt_resets (d : DataReg → Word) : (State.resetAt d).resets = [] := rfl
@[simp] theorem reset_opa : State.reset.opa = Config.resetData .opa := rfl
@[simp] theorem reset_opb : State.reset.opb = Config.resetData .opb := rfl
@[simp] theorem reset_opc : State.reset.opc = Config.resetData .opc := rfl
@[simp] theorem reset_res : State.reset.res = Config.resetData .res := rfl
@[simp] theorem reset_status : State.reset.status = 0 := rfl
@[simp] theorem reset_h : State.reset.h = Vector.replicate 8 0 := rfl
@[simp] theorem reset_pc : State.reset.pc = 0 := rfl
@[simp] theorem reset_program : State.reset.program = [] := rfl
@[simp] theorem reset_resets : State.reset.resets = [] := rfl

/-! ### `finish` -/

@[simp] theorem finish_ok (n : Int) (s : State) : finish (.ok n) s = ok n s := rfl
@[simp] theorem finish_error (e : CmdError) (s : State) : finish (.error e) s = raiseErr e s := rfl
@[simp] theorem finish_opa (r : Except CmdError Int) (s : State) : (finish r s).opa = s.opa := by
  cases r <;> rfl
@[simp] theorem finish_opb (r : Except CmdError Int) (s : State) : (finish r s).opb = s.opb := by
  cases r <;> rfl
@[simp] theorem finish_opc (r : Except CmdError Int) (s : State) : (finish r s).opc = s.opc := by
  cases r <;> rfl
@[simp] theorem finish_h (r : Except CmdError Int) (s : State) : (finish r s).h = s.h := by
  cases r <;> rfl
@[simp] theorem finish_pc (r : Except CmdError Int) (s : State) : (finish r s).pc = s.pc := by
  cases r <;> rfl
@[simp] theorem finish_program (r : Except CmdError Int) (s : State) : (finish r s).program = s.program := by
  cases r <;> rfl
@[simp] theorem finish_resets (r : Except CmdError Int) (s : State) : (finish r s).resets = s.resets := by
  cases r <;> rfl

end Sys2Proof.Machine
end

