-- ==== Sys2Proof/Laws/Ops.lean ====
section
/-! SUPPORT. What the shared operations can do: one lemma for each, which later proofs cite. -/
namespace Sys2Proof.Machine

/-- A command answers a next state, whatever its rule evaluates to (70_reset R237). -/
theorem command_next (op : BitVec 8) (r : Except CmdError Int) (s : State) :
    command op r s = .next (finish r (noteOp op s)) := rfl

/-- A command that answers `t`: everything `t` holds. The operand registers and the host are as
before; RES and STATUS are as the outcome says (60_exceptions R205, R206, 30_encoding R64). -/
theorem command_cases {op : BitVec 8} {r : Except CmdError Int} {s t : State}
    (h : command op r s = .next t) :
    (t.opa = s.opa ∧ t.opb = s.opb ∧ t.opc = s.opc ∧ t.h = s.h ∧ t.pc = s.pc ∧
      t.program = s.program ∧ t.resets = s.resets) ∧
    ((∃ n, r = .ok n ∧ t.res = enc n ∧ t.status = statusOk (putLastOp op s.status)) ∨
     (∃ e, r = .error e ∧ t.res = s.res ∧ t.status = statusRaise e (putLastOp op s.status))) := by
  rw [command_next, Host.Outcome.next.injEq] at h
  subst h
  refine ⟨by simp, ?_⟩
  cases r with
  | ok n => exact .inl ⟨n, rfl, rfl, rfl⟩
  | error e => exact .inr ⟨e, rfl, rfl, rfl⟩

/-- Repeating a command on the state it left changes nothing more (20_memory R46). -/
theorem finish_noteOp_idem (op : BitVec 8) (r : Except CmdError Int) (s : State) :
    finish r (noteOp op (finish r (noteOp op s))) = finish r (noteOp op s) := by
  cases r with
  | ok n =>
    have h : statusOk (putLastOp op (statusOk (putLastOp op s.status))) =
        statusOk (putLastOp op s.status) := by
      apply word_ext
      intro k hk
      rw [getLsbD_statusOk, getLsbD_statusOk]
      by_cases h1 : k < 2 <;> by_cases h2 : k = 2 <;> by_cases h3 : 16 ≤ k ∧ k < 24 <;>
        simp [h1, h2, h3]
    simp only [finish_ok, ok, noteOp]
    rw [h]
  | error e =>
    have h : statusRaise e (putLastOp op (statusRaise e (putLastOp op s.status))) =
        statusRaise e (putLastOp op s.status) := by
      apply word_ext
      intro k hk
      rw [getLsbD_statusRaise, getLsbD_statusRaise]
      by_cases h1 : k < 2 <;> by_cases h2 : k = stickyBit e <;>
        by_cases h3 : 16 ≤ k ∧ k < 24 <;> simp [h1, h2, h3]
    simp only [finish_error, raiseErr, noteOp]
    rw [h]

/-! ### The index map -/

@[simp] theorem readIndex_opa (s : State) : readIndex s idxOpa = s.opa := rfl
@[simp] theorem readIndex_opb (s : State) : readIndex s idxOpb = s.opb := rfl
@[simp] theorem readIndex_opc (s : State) : readIndex s idxOpc = s.opc := rfl
@[simp] theorem readIndex_res (s : State) : readIndex s idxRes = s.res := rfl
@[simp] theorem readIndex_status (s : State) : readIndex s idxStatus = s.status := rfl
@[simp] theorem readIndex_cmd (s : State) : readIndex s idxCmd = 0 := rfl

@[simp] theorem writeIndex_opa (w : Word) (s : State) : writeIndex idxOpa w s = { s with opa := w } :=
  rfl
@[simp] theorem writeIndex_opb (w : Word) (s : State) : writeIndex idxOpb w s = { s with opb := w } :=
  rfl
@[simp] theorem writeIndex_opc (w : Word) (s : State) : writeIndex idxOpc w s = { s with opc := w } :=
  rfl
@[simp] theorem writeIndex_status (w : Word) (s : State) :
    writeIndex idxStatus w s = { s with status := clearSticky w s.status } := rfl

/-- An index is one of eight. -/
theorem addr_cases (a : BitVec 3) :
    a = idxOpa ∨ a = idxOpb ∨ a = idxOpc ∨ a = idxRes ∨ a = idxStatus ∨ a = idxCmd ∨ a = 6 ∨
      a = 7 := by
  revert a; decide

/-- What a host write of an index other than CMD can do: it leaves RES and the host alone, and it
touches one register (20_memory R46). -/
theorem writeIndex_cases (a : BitVec 3) (w : Word) (s : State) :
    (a = idxOpa ∧ writeIndex a w s = { s with opa := w }) ∨
    (a = idxOpb ∧ writeIndex a w s = { s with opb := w }) ∨
    (a = idxOpc ∧ writeIndex a w s = { s with opc := w }) ∨
    (a = idxStatus ∧ writeIndex a w s = { s with status := clearSticky w s.status }) ∨
    ((a = idxRes ∨ a = idxCmd ∨ a = 6 ∨ a = 7) ∧ writeIndex a w s = s) := by
  rcases addr_cases a with h | h | h | h | h | h | h | h <;> subst h
  · exact .inl ⟨rfl, rfl⟩
  · exact .inr (.inl ⟨rfl, rfl⟩)
  · exact .inr (.inr (.inl ⟨rfl, rfl⟩))
  · exact .inr (.inr (.inr (.inr ⟨by decide, rfl⟩)))
  · exact .inr (.inr (.inr (.inl ⟨rfl, rfl⟩)))
  · exact .inr (.inr (.inr (.inr ⟨by decide, rfl⟩)))
  · exact .inr (.inr (.inr (.inr ⟨by decide, rfl⟩)))
  · exact .inr (.inr (.inr (.inr ⟨by decide, rfl⟩)))

@[simp] theorem writeIndex_res (a : BitVec 3) (w : Word) (s : State) :
    (writeIndex a w s).res = s.res := by
  rcases writeIndex_cases a w s with ⟨_, h⟩ | ⟨_, h⟩ | ⟨_, h⟩ | ⟨_, h⟩ | ⟨_, h⟩ <;> rw [h]

@[simp] theorem writeIndex_h (a : BitVec 3) (w : Word) (s : State) :
    (writeIndex a w s).h = s.h := by
  rcases writeIndex_cases a w s with ⟨_, h⟩ | ⟨_, h⟩ | ⟨_, h⟩ | ⟨_, h⟩ | ⟨_, h⟩ <;> rw [h]

@[simp] theorem writeIndex_pc (a : BitVec 3) (w : Word) (s : State) :
    (writeIndex a w s).pc = s.pc := by
  rcases writeIndex_cases a w s with ⟨_, h⟩ | ⟨_, h⟩ | ⟨_, h⟩ | ⟨_, h⟩ | ⟨_, h⟩ <;> rw [h]

@[simp] theorem writeIndex_program (a : BitVec 3) (w : Word) (s : State) :
    (writeIndex a w s).program = s.program := by
  rcases writeIndex_cases a w s with ⟨_, h⟩ | ⟨_, h⟩ | ⟨_, h⟩ | ⟨_, h⟩ | ⟨_, h⟩ <;> rw [h]

@[simp] theorem writeIndex_resets (a : BitVec 3) (w : Word) (s : State) :
    (writeIndex a w s).resets = s.resets := by
  rcases writeIndex_cases a w s with ⟨_, h⟩ | ⟨_, h⟩ | ⟨_, h⟩ | ⟨_, h⟩ | ⟨_, h⟩ <;> rw [h]

end Sys2Proof.Machine
end

