-- ==== Sys2Proof/Laws/PerInstr.lean ====
section
/-! SUPPORT. The statements made per instruction: one lemma for each constructor of `Instr`. -/
namespace Sys2Proof.Laws.CommandWord

/-- The command word of `i` has RSV 0 and its selector in SEL, and the opcode map reads its OP back as
`i` (30_encoding R60, R62). -/
def Statement (i : Instr) : Prop :=
  rsvField (encode i) = 0 ∧ selField (encode i) = selector i ∧
    instrOfOpcode (opField (encode i)) (selField (encode i)) = some i

/-- The statement holds of every command. -/
theorem all (i : Instr) : Statement i :=
  ⟨rsvField_encode i, selField_encode i, by
    rw [opField_encode, selField_encode]; exact instrOfOpcode_opcode i⟩

theorem muldiv : Statement .muldiv := all _
theorem muldivfp : Statement .muldivfp := all _
theorem mul : Statement .mul := all _
theorem div : Statement .div := all _
theorem add : Statement .add := all _
theorem sub : Statement .sub := all _
theorem abs : Statement .abs := all _
theorem avg : Statement .avg := all _
theorem floor : Statement .floor := all _
theorem ceil : Statement .ceil := all _
theorem frac : Statement .frac := all _
theorem fromint : Statement .fromint := all _
theorem toint : Statement .toint := all _
theorem sqrt : Statement .sqrt := all _
theorem gm : Statement .gm := all _
theorem powu : Statement .powu := all _
theorem pow : Statement .pow := all _
theorem log2 : Statement .log2 := all _
theorem exp2 : Statement .exp2 := all _
theorem exp : Statement .exp := all _
theorem ln : Statement .ln := all _
theorem log10 : Statement .log10 := all _
theorem const (sel : BitVec 8) : Statement (.const sel) := all _

end Sys2Proof.Laws.CommandWord
end

