-- ==== Sys2Proof/Laws/Port.lean ====
section
/-! SUPPORT. What a command, a port write and a step can do: one lemma for each, which later proofs
cite instead of unfolding the step. -/
namespace Sys2Proof.Machine

/-- What a command's rule evaluates to on the patterns of its operands at the parameters `P`
(00_scope R17). -/
def evaluate (P : Params) (i : Instr) (a b c : Word) : Except CmdError Int :=
  match i with
  | .muldiv => ofMagnitude (mulDivU (uint a) (uint b) (uint c))
  | .muldivfp => ofMagnitude (mulDivFpU (uint a) (uint b))
  | .mul => mulS (sint a) (sint b)
  | .div => divS (sint a) (sint b)
  | .add => addS (sint a) (sint b)
  | .sub => subS (sint a) (sint b)
  | .abs => ofMagnitude (absS (sint a))
  | .avg => .ok (avgS (sint a) (sint b))
  | .floor => floorS (sint a)
  | .ceil => ceilS (sint a)
  | .frac => .ok (fracS (sint a))
  | .fromint => fromIntS (sint a)
  | .toint => .ok (toIntS (sint a))
  | .sqrt => ofMagnitude (sqrtS (sint a))
  | .gm => ofMagnitude (gmS (sint a) (sint b))
  | .powu => powuS (sint a) (uint b)
  | .pow => ofMagnitude (powS P (sint a) (sint b))
  | .log2 => log2S P (sint a)
  | .exp2 => ofMagnitude (exp2S P (sint a))
  | .exp => ofMagnitude (expS P (sint a))
  | .ln => lnS P (sint a)
  | .log10 => log10S P (sint a)
  | .const sel => constS sel

/-- Every command is one evaluation and one ending (30_encoding R64). -/
theorem execAt_eq_command (P : Params) (i : Instr) (s : State) :
    execAt P i s = command (opcode i) (evaluate P i s.opa s.opb s.opc) s := by
  cases i <;> rfl

/-- `exec` is `execAt` at the default parameters (log 2). -/
theorem exec_eq_execAt (i : Instr) (s : State) : exec i s = execAt defaultParams i s := by
  cases i <;> rfl

/-- A command answers the state its ending leaves. -/
theorem execAt_next (P : Params) (i : Instr) (s : State) :
    execAt P i s = .next (finish (evaluate P i s.opa s.opb s.opc) (noteOp (opcode i) s)) :=
  execAt_eq_command P i s

theorem exec_next (i : Instr) (s : State) :
    exec i s = .next (finish (evaluate defaultParams i s.opa s.opb s.opc) (noteOp (opcode i) s)) := by
  rw [exec_eq_execAt, execAt_next]

/-- What a word evaluates to: its command's rule, or IllegalCommand (30_encoding R63). -/
def evaluateWord (P : Params) (w a b c : Word) : Except CmdError Int :=
  match decode w with
  | .ok i => evaluate P i a b c
  | .error _ => .error .illegal

/-- The opcode of the command a word decodes to is its low byte. -/
theorem opcode_of_decode {w : Word} {i : Instr} (h : decode w = .ok i) : opcode i = opField w :=
  (opcode_of_instrOfOpcode (decode_ok h).2.1).1

/-- Every CMD write is one evaluation and one ending, LAST_OP its low byte (30_encoding R64). -/
theorem runWord_next (P : Params) (w : Word) (s : State) :
    runWord P w s = .next (finish (evaluateWord P w s.opa s.opb s.opc) (noteOp (opField w) s)) := by
  unfold runWord evaluateWord
  cases h : decode w with
  | ok i => simp only [execAt_next, opcode_of_decode h]
  | error e => rfl

theorem portWrite_cmd (P : Params) (w : Word) (s : State) : portWrite P idxCmd w s = runWord P w s := by
  rw [portWrite, if_pos rfl]

theorem portWrite_other (P : Params) {addr : BitVec 3} (h : addr ≠ idxCmd) (w : Word) (s : State) :
    portWrite P addr w s = .next (writeIndex addr w s) := by
  rw [portWrite, if_neg h]

/-- A port write answers a next state; it is the ending of a command or a write of one register. -/
theorem portWrite_cases (P : Params) (addr : BitVec 3) (w : Word) (s : State) :
    (addr = idxCmd ∧ portWrite P addr w s =
      .next (finish (evaluateWord P w s.opa s.opb s.opc) (noteOp (opField w) s))) ∨
    (addr ≠ idxCmd ∧ portWrite P addr w s = .next (writeIndex addr w s)) := by
  by_cases h : addr = idxCmd
  · subst h
    exact .inl ⟨rfl, by rw [portWrite_cmd, runWord_next]⟩
  · exact .inr ⟨h, portWrite_other P h w s⟩

/-- What one host statement can do when it answers a next state: it leaves the block alone, or it
writes one register through the port, or it runs a command and moves on. -/
theorem execStmt_cases {P : Params} {st : HostStmt} {s t : State} (h : execStmt P st s = .next t) :
    (t.opa = s.opa ∧ t.opb = s.opb ∧ t.opc = s.opc ∧ t.res = s.res ∧ t.status = s.status ∧
      t.program = s.program ∧ t.resets = s.resets) ∨
    (∃ addr w v, st = .memWrite addr accessBytes v ∧ hostValue s v = .ok w ∧ addr ≠ idxCmd ∧
      t = advance (writeIndex addr w s)) ∨
    (∃ w v, st = .memWrite idxCmd accessBytes v ∧ hostValue s v = .ok w ∧
      t = advance (finish (evaluateWord P w s.opa s.opb s.opc) (noteOp (opField w) s))) := by
  cases st with
  | memRead dst addr bytes =>
    simp only [execStmt] at h
    split at h
    · cases h; exact .inl ⟨rfl, rfl, rfl, rfl, rfl, rfl, rfl⟩
    · cases h
  | memWrite addr bytes v =>
    simp only [execStmt] at h
    split at h
    · rename_i hb
      subst hb
      split at h
      · rename_i w hv
        rcases portWrite_cases P addr w s with ⟨ha, hp⟩ | ⟨ha, hp⟩
        · rw [hp] at h
          simp only [advanceAfter, Host.Outcome.next.injEq] at h
          subst ha
          exact .inr (.inr ⟨w, v, rfl, hv, h.symm⟩)
        · rw [hp] at h
          simp only [advanceAfter, Host.Outcome.next.injEq] at h
          exact .inr (.inl ⟨addr, w, v, rfl, hv, ha, h.symm⟩)
      · cases h
    · cases h
  | li dst v =>
    simp only [execStmt] at h
    split at h
    · cases h; exact .inl ⟨rfl, rfl, rfl, rfl, rfl, rfl, rfl⟩
    · cases h
  | subi dst src k => cases h; exact .inl ⟨rfl, rfl, rfl, rfl, rfl, rfl, rfl⟩
  | andi dst src k => cases h; exact .inl ⟨rfl, rfl, rfl, rfl, rfl, rfl, rfl⟩
  | bnz src target =>
    simp only [execStmt, Host.Outcome.next.injEq] at h
    subst h
    split <;> exact .inl ⟨rfl, rfl, rfl, rfl, rfl, rfl, rfl⟩
  | beqz src target =>
    simp only [execStmt, Host.Outcome.next.injEq] at h
    subst h
    split <;> exact .inl ⟨rfl, rfl, rfl, rfl, rfl, rfl, rfl⟩
  | j target => cases h; exact .inl ⟨rfl, rfl, rfl, rfl, rfl, rfl, rfl⟩
  | halt => cases h; exact .inl ⟨rfl, rfl, rfl, rfl, rfl, rfl, rfl⟩

/-- With no reset to come a step is a host step. -/
theorem stepAt_of_no_resets (P : Params) {s : State} (h : s.resets = []) : stepAt P s = hostStep P s := by
  rw [stepAt, h]

theorem step_of_no_resets {s : State} (h : s.resets = []) : step s = hostStep defaultParams s :=
  stepAt_of_no_resets defaultParams h

/-- A host step runs the statement at the pc. -/
theorem hostStep_of_stmt (P : Params) {s : State} {st : HostStmt} (h : s.program[s.pc]? = some st) :
    hostStep P s = execStmt P st s := by
  rw [hostStep, h]

/-- What a step can do when it answers a next state: a reset event that was due, or one host step
of the state with the count of steps before the next reset one lower. -/
theorem stepAt_cases {P : Params} {s t : State} (h : stepAt P s = .next t) :
    (∃ later, s.resets = 0 :: later ∧ t = { resetBlock P.resetData s with resets := later }) ∨
    (∃ left, s.resets.head? ≠ some 0 ∧ hostStep P { s with resets := left } = .next t) := by
  unfold stepAt at h
  split at h
  · rename_i hr
    exact .inr ⟨[], by simp [hr], by rw [← hr]; exact h⟩
  · rename_i later hr
    cases h
    exact .inl ⟨later, hr, rfl⟩
  · rename_i n later hr
    exact .inr ⟨n :: later, by simp [hr], h⟩

/-- What a host step can do when it answers a next state: nothing, when the program has ended, or one
statement. -/
theorem hostStep_cases {P : Params} {s t : State} (h : hostStep P s = .next t) :
    (s.program[s.pc]? = none ∧ t = s) ∨
    (∃ st, s.program[s.pc]? = some st ∧ execStmt P st s = .next t) := by
  unfold hostStep at h
  split at h
  · rename_i st hst
    exact .inr ⟨st, hst, h⟩
  · rename_i hst
    cases h
    exact .inl ⟨hst, rfl⟩

end Sys2Proof.Machine
end

