-- ==== Sys2Proof/Laws/Transcendental.lean ====
section
/-! SUPPORT. What the logarithm and the exponential answer (43_transcendental). -/
namespace Sys2Proof.Machine

/-! ### The rounds of LOG2 (R151) -/

/-- One round of LOG2: what it leaves the mantissa at. -/
def log2Round (y : Nat) : Nat :=
  if 2 * scale ≤ y * y / scale then y * y / scale / 2 else y * y / scale

/-- One round of LOG2: what it adds, at weight d. -/
def log2Adds (d y : Nat) : Nat := if 2 * scale ≤ y * y / scale then d else 0

theorem log2Loop_succ (rounds d y res : Nat) :
    log2Loop (rounds + 1) d y res = log2Loop rounds (d / 2) (log2Round y) (res + log2Adds d y) := by
  rw [log2Loop, log2Round, log2Adds]
  by_cases h : 2 * scale ≤ y * y / scale <;> simp [h]

/-- The accumulated result only adds up. -/
theorem log2Loop_add : ∀ (rounds d y res : Nat),
    log2Loop rounds d y res = res + log2Loop rounds d y 0 := by
  intro rounds
  induction rounds with
  | zero => intro d y res; simp [log2Loop]
  | succ rounds ih =>
    intro d y res
    rw [log2Loop_succ, log2Loop_succ, ih, ih (res := 0 + _)]
    omega

/-- The weights that are left add up to at most twice the first. -/
theorem log2Loop_le : ∀ (rounds d y : Nat), log2Loop rounds d y 0 ≤ 2 * d := by
  intro rounds
  induction rounds with
  | zero => intro d y; simp [log2Loop]
  | succ rounds ih =>
    intro d y
    rw [log2Loop_succ, log2Loop_add]
    have h1 := ih (d / 2) (log2Round y)
    have h2 : log2Adds d y ≤ d := by unfold log2Adds; split <;> omega
    omega

/-- A round keeps the mantissa in [1.0, 2.0) (R151). -/
theorem log2Round_range {y : Nat} (h1 : scale ≤ y) (h2 : y < 2 * scale) :
    scale ≤ log2Round y ∧ log2Round y < 2 * scale := by
  have hs := scale_pos
  have e1 : scale ≤ y * y / scale := by
    rw [Nat.le_div_iff_mul_le hs]; exact Nat.mul_le_mul h1 h1
  have e2 : y * y / scale < 4 * scale := by
    rw [Nat.div_lt_iff_lt_mul hs]; nlinarith
  unfold log2Round
  split <;> omega

/-- At a mantissa of exactly 1.0 no round adds anything (R151). -/
theorem log2Loop_one : ∀ rounds d, log2Loop rounds d scale 0 = 0 := by
  intro rounds
  have hs := scale_pos
  have h0 : scale * scale / scale = scale := Nat.mul_div_cancel _ hs
  induction rounds with
  | zero => intro d; rfl
  | succ rounds ih =>
    intro d
    have h1 : ¬ 2 * scale ≤ scale := by omega
    rw [log2Loop_succ, log2Round, log2Adds, h0, if_neg h1, if_neg h1]
    exact ih _

/-- The top bit of the whole quotient, from the bracket it lies in (R151). -/
theorem msb_div_scale {x n : Nat} (h1 : 2 ^ n * scale ≤ x) (h2 : x < 2 ^ (n + 1) * scale) :
    msb (x / scale) = n := by
  have hs := scale_pos
  have e1 : 2 ^ n ≤ x / scale := (Nat.le_div_iff_mul_le hs).2 h1
  have e2 : x / scale < 2 ^ (n + 1) := (Nat.div_lt_iff_lt_mul hs).2 h2
  unfold msb
  rw [Nat.log2_eq_iff (by have : 0 < 2 ^ n := by positivity
                          omega)]
  exact ⟨e1, e2⟩

/-- Every value from 1.0 up lies in such a bracket. -/
theorem exists_bracket {x : Nat} (h : scale ≤ x) :
    ∃ n, 2 ^ n * scale ≤ x ∧ x < 2 ^ (n + 1) * scale := by
  have hs := scale_pos
  have h0 : x / scale ≠ 0 := by
    have : 1 ≤ x / scale := (Nat.le_div_iff_mul_le hs).2 (by omega)
    omega
  refine ⟨(x / scale).log2, ?_, ?_⟩
  · exact (Nat.le_div_iff_mul_le hs).1 (Nat.log2_self_le h0)
  · exact (Nat.div_lt_iff_lt_mul hs).1 Nat.lt_log2_self

/-- The mantissa a bracket leaves lies in [1.0, 2.0) (R151). -/
theorem mantissa_range {x n : Nat} (h1 : 2 ^ n * scale ≤ x) (h2 : x < 2 ^ (n + 1) * scale) :
    scale ≤ x / 2 ^ n ∧ x / 2 ^ n < 2 * scale := by
  have hp : 0 < 2 ^ n := by positivity
  constructor
  · rw [Nat.le_div_iff_mul_le hp]; linarith [Nat.mul_comm (2 ^ n) scale]
  · rw [Nat.div_lt_iff_lt_mul hp]; rw [pow_succ] at h2; linarith

/-- LOG2 from 1.0 up, in its bracket (R151). -/
theorem log2Reduced_eq (P : Params) {x n : Nat} (h1 : 2 ^ n * scale ≤ x)
    (h2 : x < 2 ^ (n + 1) * scale) :
    log2Reduced P x = n * scale + log2Loop P.log2Iters halfScale (x / 2 ^ n) 0 := by
  rw [log2Reduced]
  simp only [msb_div_scale h1 h2]
  exact log2Loop_add _ _ _ _

theorem log2Reduced_bounds (P : Params) {x n : Nat} (h1 : 2 ^ n * scale ≤ x)
    (h2 : x < 2 ^ (n + 1) * scale) :
    n * scale ≤ log2Reduced P x ∧ log2Reduced P x ≤ (n + 1) * scale := by
  rw [log2Reduced_eq P h1 h2]
  have := log2Loop_le P.log2Iters halfScale (x / 2 ^ n)
  have hh := scale_eq_half
  constructor
  · omega
  · rw [Nat.add_mul]; omega

theorem log2S_domain (P : Params) {x : Int} (h : x ≤ 0) : log2S P x = .error .domain := by
  rw [log2S, if_pos h]

theorem log2S_ge (P : Params) {x : Int} (h : (scale : Int) ≤ x) :
    log2S P x = .ok (log2Reduced P x.natAbs) := by
  have : (0 : Int) < scale := by exact_mod_cast scale_pos
  rw [log2S, if_neg (by omega), if_pos h]

theorem log2S_lt (P : Params) {x : Int} (h0 : 0 < x) (h : x < scale) :
    log2S P x = .ok (-(log2Reduced P (inv x.natAbs) : Int)) := by
  rw [log2S, if_neg (by omega), if_neg (by omega)]

/-- The reciprocal of a value below 1.0 is at least 1.0, and at most 10^36 (R150). -/
theorem inv_range {v : Nat} (h0 : 0 < v) (h : v < scale) : scale ≤ inv v ∧ inv v ≤ 10 ^ 36 := by
  unfold inv
  refine ⟨?_, Nat.div_le_self _ _⟩
  rw [Nat.le_div_iff_mul_le h0]
  have : scale * scale = 10 ^ 36 := by decide
  nlinarith

/-- LOG2 answers for every positive signed value, and its answer lies between -60.0 and 196.0
(R151). -/
theorem log2S_ok (P : Params) {x : Int} (h0 : 0 < x) (h1 : x < 2 ^ 255) :
    ∃ r, log2S P x = .ok r ∧ -60 * scale ≤ r ∧ r ≤ 196 * scale := by
  have hs := scale_pos
  by_cases h : (scale : Int) ≤ x
  · obtain ⟨n, e1, e2⟩ := exists_bracket (x := x.natAbs) (by omega)
    obtain ⟨e3, e4⟩ := log2Reduced_bounds P e1 e2
    refine ⟨_, log2S_ge P h, by omega, ?_⟩
    have hn : n < 196 := by
      have e5 : 2 ^ n * scale < 2 ^ 196 * scale := by
        refine lt_of_le_of_lt e1 (lt_of_lt_of_le (show x.natAbs < 2 ^ 255 by omega) ?_)
        decide
      exact (Nat.pow_lt_pow_iff_right (by decide)).1 (Nat.lt_of_mul_lt_mul_right e5)
    have : (n + 1) * scale ≤ 196 * scale := Nat.mul_le_mul_right _ (by omega)
    omega
  · have hx : 0 < x.natAbs := by omega
    obtain ⟨f1, f2⟩ := inv_range hx (by omega)
    obtain ⟨n, e1, e2⟩ := exists_bracket f1
    obtain ⟨e3, e4⟩ := log2Reduced_bounds P e1 e2
    refine ⟨_, log2S_lt P h0 (by omega), ?_, by omega⟩
    have hn : n < 60 := by
      have e5 : 2 ^ n * scale < 2 ^ 60 * scale := by
        refine lt_of_le_of_lt (e1.trans f2) ?_
        decide
      exact (Nat.pow_lt_pow_iff_right (by decide)).1 (Nat.lt_of_mul_lt_mul_right e5)
    have : (n + 1) * scale ≤ 60 * scale := Nat.mul_le_mul_right _ (by omega)
    omega

/-! ### The exponential (R152, R153) -/

theorem exp2Real_mono {m n : Nat} (h : m ≤ n) : exp2Real m ≤ exp2Real n := by
  unfold exp2Real
  have hs : (0 : ℝ) < scale := by exact_mod_cast scale_pos
  apply mul_le_mul_of_nonneg_left _ hs.le
  apply Real.rpow_le_rpow_of_exponent_le (by norm_num)
  gcongr

/-- The floor at m is known by any bracket of the real value (R152). -/
theorem exp2Exact_unique {m y : Nat} (hm : m < 192 * 2 ^ 64) (h1 : (y : ℝ) ≤ exp2Real m)
    (h2 : exp2Real m < y + 1) : exp2Exact m = y := by
  obtain ⟨e1, e2⟩ := exp2Exact_floor hm
  have f1 : (exp2Exact m : ℝ) < y + 1 := lt_of_le_of_lt e1 h2
  have f2 : (y : ℝ) < exp2Exact m + 1 := lt_of_le_of_lt h1 e2
  have g1 : exp2Exact m < y + 1 := by exact_mod_cast f1
  have g2 : y < exp2Exact m + 1 := by exact_mod_cast f2
  omega

/-- The 192.64 value of an argument below 192.0 (R152). -/
theorem exp2_arg_lt {x : Nat} (h : x < 192 * scale) : x * 2 ^ 64 / scale < 192 * 2 ^ 64 := by
  rw [Nat.div_lt_iff_lt_mul scale_pos]
  have : 0 < 2 ^ 64 := by positivity
  nlinarith

/-- The default EXP2_CORE is at least 1.0 and below 2^252 raw on its domain (R152). -/
theorem exp2CoreDefault_range {x : Nat} (h : x < 192 * scale) :
    scale ≤ exp2CoreDefault x ∧ exp2CoreDefault x < 2 ^ 252 := by
  have hm := exp2_arg_lt h
  obtain ⟨e1, e2⟩ := exp2Exact_floor hm
  have hs : (0 : ℝ) < scale := by exact_mod_cast scale_pos
  unfold exp2CoreDefault
  constructor
  · have e3 : (scale : ℝ) ≤ exp2Real (x * 2 ^ 64 / scale) := by
      have : exp2Real 0 = scale := by simp [exp2Real]
      rw [← this]
      exact exp2Real_mono (Nat.zero_le _)
    have e4 : (scale : ℝ) < exp2Exact (x * 2 ^ 64 / scale) + 1 := lt_of_le_of_lt e3 e2
    have : scale < exp2Exact (x * 2 ^ 64 / scale) + 1 := by exact_mod_cast e4
    omega
  · have e3 : exp2Real (x * 2 ^ 64 / scale) ≤ exp2Real (192 * 2 ^ 64) := exp2Real_mono hm.le
    have e5 : exp2Real (192 * 2 ^ 64) = scale * 2 ^ 192 := by
      have h9 : (((192 * 2 ^ 64 : Nat) : ℝ) / 2 ^ 64) = ((192 : Nat) : ℝ) := by
        push_cast
        field_simp
        norm_num
      rw [exp2Real, h9, Real.rpow_natCast]
    rw [e5] at e3
    have e4 : (exp2Exact (x * 2 ^ 64 / scale) : ℝ) ≤ scale * 2 ^ 192 := e1.trans e3
    have e6 : exp2Exact (x * 2 ^ 64 / scale) ≤ scale * 2 ^ 192 := by exact_mod_cast e4
    have e7 : scale * 2 ^ 192 < 2 ^ 252 := by decide
    omega

theorem exp2Pos_overflow (P : Params) {x : Nat} (h : 192 * scale ≤ x) :
    exp2Pos P x = .error .overflow := by rw [exp2Pos, if_pos h]

theorem exp2Pos_ok (P : Params) {x : Nat} (h : x < 192 * scale) :
    exp2Pos P x = .ok (P.exp2Core x) := by rw [exp2Pos, if_neg (by omega)]

theorem exp2S_nonneg (P : Params) {x : Int} (h : 0 ≤ x) : exp2S P x = exp2Pos P x.natAbs := by
  rw [exp2S, if_neg (by omega)]

theorem exp2S_zero (P : Params) {x : Int} (h : x < -(P.exp2NegCutoff : Int)) :
    exp2S P x = .ok 0 := by
  rw [exp2S, if_pos (by omega), if_pos h]

theorem exp2S_neg (P : Params) {x : Int} (h0 : x < 0) (h : -(P.exp2NegCutoff : Int) ≤ x) :
    exp2S P x = (exp2Pos P x.natAbs).map inv := by
  rw [exp2S, if_pos h0, if_neg (by omega)]

/-! ### The decimal table (R156) -/

theorem tenPower_some {x : Int} : ∀ (n k j : Nat), tenPower x n k = some j →
    k ≤ j ∧ j < k + n ∧ x = 10 ^ j := by
  intro n
  induction n with
  | zero => intro k j h; simp [tenPower] at h
  | succ n ih =>
    intro k j h
    rw [tenPower] at h
    by_cases hx : x = 10 ^ k
    · rw [if_pos hx, Option.some.injEq] at h
      subst h
      exact ⟨le_rfl, by omega, hx⟩
    · rw [if_neg hx] at h
      obtain ⟨h1, h2, h3⟩ := ih _ _ h
      exact ⟨by omega, by omega, h3⟩

theorem tenPower_none {x : Int} : ∀ (n k : Nat), (∀ j, k ≤ j → j < k + n → x ≠ 10 ^ j) →
    tenPower x n k = none := by
  intro n
  induction n with
  | zero => intro k _; rfl
  | succ n ih =>
    intro k h
    rw [tenPower, if_neg (h k le_rfl (by omega))]
    exact ih _ fun j h1 h2 => h j (by omega) (by omega)

/-- The table has the entry of each of its 77 powers (R156). -/
theorem log10Table_pow {k : Nat} (h : k ≤ 76) : log10Table (10 ^ k) = some (((k : Int) - 18) * scale) := by
  unfold log10Table
  cases ht : tenPower (10 ^ k) 77 0 with
  | none =>
    exfalso
    have : ∀ (n j : Nat), tenPower (10 ^ k : Int) n j = none → ∀ i, j ≤ i → i < j + n →
        (10 ^ k : Int) ≠ 10 ^ i := by
      intro n
      induction n with
      | zero => intro j _ i h1 h2; omega
      | succ n ih =>
        intro j hj i h1 h2
        rw [tenPower] at hj
        by_cases hx : (10 ^ k : Int) = 10 ^ j
        · rw [if_pos hx] at hj; simp at hj
        · rw [if_neg hx] at hj
          rcases Nat.eq_or_lt_of_le h1 with rfl | h3
          · exact hx
          · exact ih _ hj i h3 (by omega)
    exact this 77 0 ht k (Nat.zero_le _) (by omega) rfl
  | some j =>
    obtain ⟨-, -, h3⟩ := tenPower_some _ _ _ ht
    have : k = j := by
      have h4 : (10 : Nat) ^ k = 10 ^ j := by exact_mod_cast h3
      exact Nat.pow_right_injective (by decide) h4
    subst this
    rfl

theorem log10Table_none {x : Int} (h : ∀ k : Nat, k ≤ 76 → x ≠ 10 ^ k) : log10Table x = none := by
  rw [log10Table, tenPower_none _ _ fun j _ h2 => h j (by omega)]
  rfl

/-- Dividing a logarithm by a constant of at least 1.0 never fails (R155, R157). -/
theorem divS_log {l c : Int} (h1 : -60 * scale ≤ l) (h2 : l ≤ 196 * scale) (hc : (scale : Int) ≤ c)
    (hc2 : c < 2 ^ 255) :
    divS l c = .ok ((l * scale).tdiv c) ∧ ((l * scale).tdiv c).natAbs < 2 ^ 255 := by
  rw [scale_int] at h1 h2 hc
  have hlt : l.natAbs * scale / c.natAbs < 2 ^ 255 := by
    refine lt_of_le_of_lt (Nat.div_le_self _ _) ?_
    have : l.natAbs ≤ 196 * 1000000000000000000 := by omega
    calc l.natAbs * scale ≤ (196 * 1000000000000000000) * scale := Nat.mul_le_mul_right _ this
      _ < 2 ^ 255 := by decide
  rw [divS_eq (by omega) (by omega) (by omega), if_pos hlt, ← applySign_div_eq_tdiv]
  exact ⟨rfl, by rwa [natAbs_applySign]⟩

end Sys2Proof.Machine
end

