-- ==== Sys2Proof/Laws/PowerRoot.lean ====
section
/-! SUPPORT. What the power and root operations answer (42_power_root). -/
namespace Sys2Proof.Machine

/-- The root of a non-negative integer, from the bracket of its square (R130). -/
theorem isqrt_natAbs_unique {p r : Int} (h0 : 0 ≤ r) (h1 : r * r ≤ p) (h2 : p < (r + 1) * (r + 1)) :
    (isqrt p.natAbs : Int) = r := by
  have hp : 0 ≤ p := le_trans (mul_self_nonneg r) h1
  obtain ⟨n, rfl⟩ := Int.eq_ofNat_of_zero_le h0
  obtain ⟨m, rfl⟩ := Int.eq_ofNat_of_zero_le hp
  rw [Int.natAbs_natCast, isqrt_unique (by exact_mod_cast h1) (by exact_mod_cast h2)]

theorem sqrtS_domain {x : Int} (h : x < 0) : sqrtS x = .error .domain := by rw [sqrtS, if_pos h]

theorem sqrtS_overflow {x : Int} (h0 : 0 ≤ x) (h : 2 ^ 255 ≤ x * scale) :
    sqrtS x = .error .overflow := by
  rw [sqrtS, if_neg (by omega), if_pos (by rw [maxValue_eq]; omega)]

theorem sqrtS_ok {x : Int} (h0 : 0 ≤ x) (h : x * scale < 2 ^ 255) :
    sqrtS x = .ok (isqrt (x * scale).natAbs) := by
  rw [sqrtS, if_neg (by omega), if_neg (by rw [maxValue_eq]; omega)]

theorem gmS_overflow {x y : Int} (h : x * y < -(2 ^ 255) ∨ 2 ^ 255 ≤ x * y) :
    gmS x y = .error .overflow := by
  rw [gmS]
  rw [if_pos (by rw [minValue_eq, maxValue_eq]; omega)]

theorem gmS_domain {x y : Int} (h : -(2 ^ 255) ≤ x * y) (h0 : x * y < 0) :
    gmS x y = .error .domain := by
  rw [gmS]
  rw [if_neg (by rw [minValue_eq, maxValue_eq]; omega), if_pos h0]

theorem gmS_ok {x y : Int} (h0 : 0 ≤ x * y) (h : x * y < 2 ^ 255) :
    gmS x y = .ok (isqrt (x * y).natAbs) := by
  rw [gmS]
  rw [if_neg (by rw [minValue_eq, maxValue_eq]; omega), if_neg (by omega)]

/-- A root is at most its radicand, so the root of a signed value is one. -/
theorem isqrt_le_self (n : Nat) : isqrt n ≤ n := by
  rw [isqrt_eq_sqrt]; exact Nat.sqrt_le_self n

/-! ### The loop of POWU (R133) -/

@[simp] theorem powuLoop_done (fuel xa r : Nat) : powuLoop fuel 0 xa r = .ok r := by
  cases fuel <;> simp [powuLoop]

/-- One round of POWU: the squaring, then the product where the bit is 1, then the rest. -/
theorem powuLoop_round {fuel k : Nat} (hk : 0 < k) (xa r : Nat) :
    powuLoop (fuel + 1) k xa r =
      (mulDivFpU xa xa).bind fun xa =>
        (if k % 2 = 1 then mulDivFpU r xa else .ok r).bind fun r => powuLoop fuel (k / 2) xa r := by
  rw [powuLoop, if_neg (by omega)]
  cases mulDivFpU xa xa with
  | error e => rfl
  | ok xa' =>
    simp only [Except.bind]
    by_cases h : k % 2 = 1
    · simp only [h, if_true]
      cases mulDivFpU r xa' <;> rfl
    · simp only [h, if_false]

theorem powuS_domain (n : Nat) : powuS (-(2 ^ 255)) n = .error .domain := by
  rw [powuS, absS_domain]

/-- POWU of a base other than MIN_VALUE: the loop, then the range of the magnitude (R133). -/
theorem powuS_eq {x : Int} (h : x ≠ -(2 ^ 255)) (n : Nat) :
    powuS x n = (powuLoop 255 (n / 2) x.natAbs (if n % 2 = 1 then x.natAbs else scale)).bind
      (signedOf (isNeg x && n % 2 == 1)) := by
  rw [powuS, absS_ok h]
  dsimp only
  cases powuLoop 255 (n / 2) x.natAbs (if n % 2 = 1 then x.natAbs else scale) <;> rfl

/-! ### POW (R134) -/

theorem powS_zero (P : Params) (y : Int) : powS P 0 y = .ok (if y = 0 then scale else 0) := by
  rw [powS, if_pos rfl]

theorem powS_eq (P : Params) {x : Int} (h : x ≠ 0) (y : Int) :
    powS P x y = (log2S P x).bind fun l => (mulS l y).bind (exp2S P) := by
  rw [powS, if_neg h]

end Sys2Proof.Machine
end

