-- ==== Sys2Proof/Tests/Slice0.lean ====
section
/-! SUPPORT. The model's own tests, on the spec's vectors (95_test_vectors), and a witness for the
hypotheses of every obligation that has some. -/
namespace Sys2Proof.Tests

-- One theorem at a time: side by side, their kernel evaluations take a thread's stack each.
set_option Elab.async false

open Sys2Proof.Machine Sys2Proof.Claims Sys2Proof.Safety

/-! ### Well-formedness and decode -/

theorem test_wellFormed_refuses_selector_9 : (Instr.const 9).wellFormed = false := by decide
theorem test_wellFormed_accepts_selector_8 : (Instr.const 8).wellFormed = true := by decide
theorem test_wellFormed_accepts_fieldless : Instr.pow.wellFormed = true := by decide

/-- Words of 30_encoding R62: opcodes 0x01 to 0x04. -/
theorem test_decode_muldiv_family :
    decode 0x01 = .ok .muldiv ∧ decode 0x02 = .ok .muldivfp ∧ decode 0x03 = .ok .mul ∧
    decode 0x04 = .ok .div := ⟨rfl, rfl, rfl, rfl⟩

/-- Words of 30_encoding R62: opcodes 0x10 to 0x18. -/
theorem test_decode_elementary_family :
    decode 0x10 = .ok .add ∧ decode 0x11 = .ok .sub ∧ decode 0x12 = .ok .abs ∧
    decode 0x13 = .ok .avg ∧ decode 0x14 = .ok .floor ∧ decode 0x15 = .ok .ceil ∧
    decode 0x16 = .ok .frac ∧ decode 0x17 = .ok .fromint ∧ decode 0x18 = .ok .toint :=
  ⟨rfl, rfl, rfl, rfl, rfl, rfl, rfl, rfl, rfl⟩

/-- Words of 30_encoding R62: opcodes 0x20 to 0x23. -/
theorem test_decode_power_root_family :
    decode 0x20 = .ok .sqrt ∧ decode 0x21 = .ok .gm ∧ decode 0x22 = .ok .powu ∧
    decode 0x23 = .ok .pow := ⟨rfl, rfl, rfl, rfl⟩

/-- Words of 30_encoding R62: opcodes 0x30 to 0x34. -/
theorem test_decode_transcendental_family :
    decode 0x30 = .ok .log2 ∧ decode 0x31 = .ok .exp2 ∧ decode 0x32 = .ok .exp ∧
    decode 0x33 = .ok .ln ∧ decode 0x34 = .ok .log10 := ⟨rfl, rfl, rfl, rfl, rfl⟩

/-- A word of format CMDW bit by bit (30_encoding R60): SEL = 00000111, OP = 01000000; PI by 44 R181. -/
theorem test_decode_const : decode 0b0000_0111_0100_0000 = .ok (.const 7) := rfl

/-- The illegal words of 95 section 2.6, by the check that rejects each (30_encoding R63). -/
theorem test_decode_rejects :
    decode 0x00 = .error .unknownOpcode ∧ decode 0x05 = .error .unknownOpcode ∧
    decode 0x19 = .error .unknownOpcode ∧ decode 0x24 = .error .unknownOpcode ∧
    decode 0x35 = .error .unknownOpcode ∧ decode 0x41 = .error .unknownOpcode ∧
    decode 0xff = .error .unknownOpcode ∧ decode 0x103 = .error .selectorNotAllowed ∧
    decode 0x940 = .error .unknownSelector ∧ decode 0x10000 = .error .reservedBits ∧
    decode (1 <<< 255) = .error .reservedBits :=
  ⟨rfl, rfl, rfl, rfl, rfl, rfl, rfl, rfl, rfl, rfl, rfl⟩

theorem test_decodeTableWord : decodeTableWord 256 0x0840 = some (.const 8) := by decide +kernel

/-! ### One command on a small state -/

/-- The block with these operands, as integers, and RES raw 99; all else as after reset. -/
def block (a b c : Int) : State :=
  { State.reset with opa := enc a, opb := enc b, opc := enc c, res := 99 }

/-- The same with a host program at its first statement. -/
def withProgram (p : List HostStmt) : State := { block 0 0 0 with program := p }

/-- The command ends in a next state with this RES, read signed, and this STATUS. -/
def gives (r : StepResult) (n : Int) (status : Word) : Bool :=
  match r with
  | .next t => sint t.res == n && t.status == status
  | .fault _ => false
  | .refused _ => false

/-- 1.0, raw. -/
def one : Int := 1000000000000000000
/-- MAX_VALUE of 00_scope R5. -/
def maxV : Int := 2 ^ 255 - 1
/-- MIN_VALUE of 00_scope R5. -/
def minV : Int := -(2 ^ 255)
/-- The greatest magnitude. -/
def maxU : Int := 2 ^ 256 - 1

-- The vectors are those of 95_test_vectors section 2, with STATUS by 60_exceptions R205 and R206.

theorem test_muldiv_wide : gives (exec .muldiv (block (2 ^ 255) (2 ^ 255) (2 ^ 254 + 1)))
    (-4) 0x010004 := by decide +kernel
theorem test_muldiv_overflow : gives (exec .muldiv (block (2 ^ 255) (2 ^ 255) (2 ^ 254)))
    99 0x010202 := by decide +kernel
theorem test_muldivfp_half_up : gives (exec .muldivfp (block 3 (one / 2) 0)) 2 0x020004 := by
  decide +kernel
theorem test_muldivfp_carry : gives (exec .muldivfp (block (one + 2)
    115792089237316195191986806534055517469296371597529529100864840812854071438206 0))
    99 0x020202 := by decide +kernel
theorem test_mul_away_from_zero : gives (exec .mul (block (-1) (one / 2) 0)) (-1) 0x030004 := by
  decide +kernel
theorem test_mul_minValue : gives (exec .mul (block 0 minV 0)) 99 0x030101 := by decide +kernel
theorem test_div_truncates : gives (exec .div (block (-one) (3 * one) 0))
    (-333333333333333333) 0x040004 := by decide +kernel
theorem test_div_overflow : gives (exec .div (block maxV (one - 1) 0)) 99 0x040202 := by
  decide +kernel

theorem test_add_signs : gives (exec .add (block maxV minV 0)) (-1) 0x100004 := by decide +kernel
theorem test_add_overflow : gives (exec .add (block maxV 1 0)) 99 0x100202 := by decide +kernel
theorem test_sub_order : gives (exec .sub (block one (2 * one + one / 2) 0))
    (-1500000000000000000) 0x110004 := by decide +kernel
theorem test_sub_overflow : gives (exec .sub (block 0 minV 0)) 99 0x110202 := by decide +kernel
theorem test_abs : gives (exec .abs (block (minV + 1) 0 0)) maxV 0x120004 := by decide +kernel
theorem test_abs_minValue : gives (exec .abs (block minV 0 0)) 99 0x120101 := by decide +kernel
theorem test_avg_rounds_down : gives (exec .avg (block (-1) (-2) 0)) (-2) 0x130004 := by
  decide +kernel
theorem test_avg_wide : gives (exec .avg (block minV maxV 0)) (-1) 0x130004 := by decide +kernel
theorem test_floor_negative : gives (exec .floor (block (-one - one / 2) 0 0))
    (-2000000000000000000) 0x140004 := by decide +kernel
theorem test_floor_overflow : gives (exec .floor (block minV 0 0)) 99 0x140202 := by decide +kernel
theorem test_ceil_positive : gives (exec .ceil (block 1 0 0)) 1000000000000000000 0x150004 := by
  decide +kernel
theorem test_ceil_overflow : gives (exec .ceil (block maxV 0 0)) 99 0x150202 := by decide +kernel
theorem test_frac_sign : gives (exec .frac (block minV 0 0)) (-792003956564819968) 0x160004 := by
  decide +kernel
theorem test_fromint : gives (exec .fromint (block (-1) 0 0)) (-1000000000000000000) 0x170004 := by
  decide +kernel
theorem test_fromint_overflow : gives (exec .fromint (block
    57896044618658097711785492504343953926634992332820282019729 0 0)) 99 0x170202 := by
  decide +kernel
theorem test_toint_truncates : gives (exec .toint (block (-one - one / 2) 0 0)) (-1) 0x180004 := by
  decide +kernel

theorem test_sqrt : gives (exec .sqrt (block (2 * one) 0 0)) 1414213562373095048 0x200004 := by
  decide +kernel
theorem test_sqrt_overflow : gives (exec .sqrt (block
    57896044618658097711785492504343953926634992332820282019729 0 0)) 99 0x200202 := by
  decide +kernel
theorem test_gm_negatives : gives (exec .gm (block (-one) (-4 * one) 0))
    2000000000000000000 0x210004 := by decide +kernel
theorem test_gm_range_first : gives (exec .gm (block (-1) minV 0)) 99 0x210202 := by decide +kernel
theorem test_powu_negative_odd : gives (exec .powu (block (-2 * one) 3 0))
    (-8000000000000000000) 0x220004 := by decide +kernel
theorem test_powu_longest : gives (exec .powu (block (-one) maxU 0))
    (-1000000000000000000) 0x220004 := by decide +kernel
theorem test_pow : gives (exec .pow (block (4 * one) (one / 2) 0)) 2000000000000000000 0x230004 := by
  decide +kernel
theorem test_pow_zero_base : gives (exec .pow (block 0 minV 0)) 0 0x230004 := by decide +kernel

theorem test_log2 : gives (exec .log2 (block (3 * one) 0 0)) 1584962500721156166 0x300004 := by
  decide +kernel
theorem test_log2_smallest : gives (exec .log2 (block 1 0 0)) (-59794705707972522245) 0x300004 := by
  decide +kernel
theorem test_exp2_top : gives (exec .exp2 (block (192 * one - 1) 0 0))
    6277101735386680759354339921922913829081151010533160519306781443602673422245 0x310004 := by
  decide +kernel
theorem test_exp2_cutoff : gives (exec .exp2 (block (-59794705707972522262) 0 0)) 0 0x310004 := by
  decide +kernel
theorem test_exp : gives (exec .exp (block one 0 0)) 2718281828459045234 0x320004 := by
  decide +kernel
theorem test_exp_overflow : gives (exec .exp (block 133084258667509499441 0 0)) 99 0x320202 := by
  decide +kernel
theorem test_ln : gives (exec .ln (block (one / 2) 0 0)) (-693147180559945309) 0x330004 := by
  decide +kernel
theorem test_ln_domain : gives (exec .ln (block 0 0 0)) 99 0x330101 := by decide +kernel
theorem test_log10_table : gives (exec .log10 (block (10 ^ 76) 0 0))
    58000000000000000000 0x340004 := by decide +kernel
theorem test_log10_beside_table : gives (exec .log10 (block (10 ^ 76 - 1) 0 0))
    58000000000000000011 0x340004 := by decide +kernel

theorem test_const : gives (exec (.const 6) (block 0 0 0)) 2718281828459045235 0x400004 := by
  decide +kernel

/-! ### The port, STATUS and steps -/

/-- 95 section 2.6: the rejected words 0x103 and 0x10000, RES as before. -/
theorem test_illegal_word : gives (portWrite defaultParams 5 0x103 (block one (4 * one) 1)) 99 0x030403 ∧
    gives (portWrite defaultParams 5 0x10000 (block one (4 * one) 1)) 99 0x000403 := by decide +kernel

/-- 95 section 2.6, sticky steps 2, 4 and 5: a success keeps the sticky bits; 0x100 clears one of
them; 0xffff_ffff clears them all and no other bit. -/
theorem test_sticky :
    gives (portWrite defaultParams 5 0x20 { block one 0 0 with status := 0x040101 }) one 0x200104 ∧
    gives (portWrite defaultParams 4 0x100 { block one 0 0 with status := 0x507 }) 99 0x407 ∧
    gives (portWrite defaultParams 4 0xffffffff { block one 0 0 with status := 0x407 }) 99 0x7 := by
  decide +kernel

/-- 95 section 3: fx(2.5) and fx(-1.0) as patterns (30_encoding R68). -/
theorem test_fx_literals :
    hostValue State.reset (.fx 25 1) = .ok 0x22b1c8c1227a0000 ∧
    hostValue State.reset (.fx (-1) 0) =
      .ok 0xfffffffffffffffffffffffffffffffffffffffffffffffff21f494c589c0000 := ⟨rfl, rfl⟩

/-- A program of 95 P4's shape: the branch label is the index of the statement after it
(30_encoding R70). -/
theorem test_assemble : assemble [.beqz 2 1, .op1 .floor (.fx 1 0), .label 1, .mov .opa, .halt] =
    [.beqz 2 3, .memWrite 0 32 (.fx 1 0), .memWrite 5 32 (.hex 0x14), .memRead 7 3 32,
      .memWrite 0 32 (.reg 7), .halt] := rfl

theorem test_withFetchWord : gives (step (State.reset.withFetchWord 256 0x0740))
    3141592653589793238 0x400004 := by decide +kernel

theorem test_reset_step_is_idle : step State.reset = .next State.reset := rfl

/-- 43_transcendental R151 with LOG2_ITERS = 1: of log2(3.0) the whole part and the first weight. -/
theorem test_parameters_reach_the_step :
    gives (stepAt { defaultParams with log2Iters := 1 } { block (3 * one) 0 0 with
      program := [.memWrite 5 32 (.hex 0x30)] }) 1500000000000000000 0x300004 := by decide +kernel

/-! ### Witnesses: values and encoding -/

theorem witness_PatternsReadAsNumbers :
    (Representable (-(2 ^ 255)) ∧ Representable (2 ^ 255 - 1)) ∧ (2 ^ 256 - 1 : Nat) ≤ 2 ^ 256 - 1 := by
  unfold Representable; decide

theorem witness_DecodeOfEncode :
    (Instr.const 8).wellFormed = true ∧ (Instr.const 0).wellFormed = true ∧ Instr.add.wellFormed = true := by
  decide

theorem witness_EncodeOfDecode : decode 0x840 = .ok (.const 8) := rfl

theorem witness_BytesAreLittleEndian : (0 < 32 ∧ 31 < 32) ∧ (Instr.const 8).wellFormed = true := by
  decide

/-! ### Witnesses: commands -/

/-- A command that evaluates to a signed value succeeds with it. -/
theorem succeeds_of_evaluate {i : Instr} {s : State} {n : Int}
    (h : evaluate defaultParams i s.opa s.opb s.opc = .ok n) (h1 : -(2 ^ 255) ≤ n) (h2 : n < 2 ^ 255) :
    Succeeds i s n := by
  refine ⟨_, exec_next i s, ?_, ?_⟩ <;> rw [h]
  · simp [sint_enc h1 h2]
  · refine ⟨by simp, by simp, by simp, fun k h3 hk => ?_, by constructor <;> simp⟩
    have e1 : ¬ k < 2 := by omega
    have e2 : k ≠ 2 := by omega
    have e3 : ¬ (16 ≤ k ∧ k < 24) := by omega
    simp only [finish_ok, ok_status, noteOp_status, getLsbD_statusOk, e1, e2, e3, if_false]

theorem witness_MuldivIsExactFloor :
    uint (block 5 0 0).opc = 0 ∧
    (let s := block maxU maxU maxU
     0 < uint s.opc ∧ (2 ^ 256 - 1) * uint s.opc ≤ uint s.opa * uint s.opb ∧
      uint s.opa * uint s.opb < (2 ^ 256 - 1 + 1) * uint s.opc ∧ 2 ^ 256 - 1 ≤ 2 ^ 256 - 1) ∧
    (let s := block (2 ^ 255) (2 ^ 255) (2 ^ 254)
     0 < uint s.opc ∧ 2 ^ 256 * uint s.opc ≤ uint s.opa * uint s.opb ∧
      uint s.opa * uint s.opb < (2 ^ 256 + 1) * uint s.opc ∧ 2 ^ 256 - 1 < 2 ^ 256) := by
  decide +kernel

/-- The two products of 95 section 2.1 on either side of the carry. -/
theorem witness_MuldivfpRoundsHalfUp :
    (let s := block (one + 2) 115792089237316195191986806534055517469296371597529529100864840812854071438205 0
     2 * ((2 ^ 256 - 1) * 10 ^ 18) ≤ 2 * (uint s.opa * uint s.opb) + 10 ^ 18 ∧
      2 * (uint s.opa * uint s.opb) + 10 ^ 18 < 2 * ((2 ^ 256 - 1 + 1) * 10 ^ 18)) ∧
    (let s := block (one + 2) 115792089237316195191986806534055517469296371597529529100864840812854071438206 0
     2 * (2 ^ 256 * 10 ^ 18) ≤ 2 * (uint s.opa * uint s.opb) + 10 ^ 18 ∧
      2 * (uint s.opa * uint s.opb) + 10 ^ 18 < 2 * ((2 ^ 256 + 1) * 10 ^ 18) ∧
      2 ^ 256 - 1 < 2 ^ 256) := by
  decide +kernel

theorem witness_MulRoundsHalfAwayFromZero :
    (sint (block minV 0 0).opa = -(2 ^ 255)) ∧
    (let s := block (-maxV) one 0
     sint s.opa ≠ -(2 ^ 255) ∧ sint s.opb ≠ -(2 ^ 255) ∧
      2 * ((2 ^ 255 - 1) * 10 ^ 18) ≤ 2 * ((sint s.opa).natAbs * (sint s.opb).natAbs) + 10 ^ 18 ∧
      2 * ((sint s.opa).natAbs * (sint s.opb).natAbs) + 10 ^ 18 < 2 * ((2 ^ 255 - 1 + 1) * 10 ^ 18)) ∧
    (let s := block (2 ^ 254) (2 * one) 0
     sint s.opa ≠ -(2 ^ 255) ∧ sint s.opb ≠ -(2 ^ 255) ∧
      2 * (2 ^ 255 * 10 ^ 18) ≤ 2 * ((sint s.opa).natAbs * (sint s.opb).natAbs) + 10 ^ 18 ∧
      2 * ((sint s.opa).natAbs * (sint s.opb).natAbs) + 10 ^ 18 < 2 * ((2 ^ 255 + 1) * 10 ^ 18) ∧
      2 ^ 255 - 1 < 2 ^ 255) := by
  decide +kernel

theorem witness_DivTruncatesTowardZero :
    sint (block one minV 0).opb = -(2 ^ 255) ∧ sint (block one 0 0).opb = 0 ∧
    (let s := block (-maxV) one 0
     sint s.opa ≠ -(2 ^ 255) ∧ sint s.opb ≠ -(2 ^ 255) ∧ sint s.opb ≠ 0 ∧
      ((sint s.opa * 10 ^ 18).tdiv (sint s.opb)).natAbs ≤ 2 ^ 255 - 1) ∧
    (let s := block maxV (one - 1) 0
     sint s.opa ≠ -(2 ^ 255) ∧ sint s.opb ≠ -(2 ^ 255) ∧ sint s.opb ≠ 0 ∧
      2 ^ 255 - 1 < ((sint s.opa * 10 ^ 18).tdiv (sint s.opb)).natAbs) := by
  decide +kernel

theorem witness_MulUndoesDivBelowOne :
    (sint (block one (-one) 0).opb).natAbs ≤ 10 ^ 18 ∧ Succeeds .div (block one (-one) 0) (-one) :=
  ⟨by decide +kernel, succeeds_of_evaluate (by decide +kernel) (by decide) (by decide)⟩

theorem witness_AddIsExactOrOverflows :
    Representable (sint (block maxV 0 0).opa + sint (block maxV 0 0).opb) ∧
    ¬ Representable (sint (block maxV 1 0).opa + sint (block maxV 1 0).opb) := by
  unfold Representable; decide +kernel

theorem witness_SubIsExactOrOverflows :
    Representable (sint (block minV 0 0).opa - sint (block minV 0 0).opb) ∧
    ¬ Representable (sint (block minV 1 0).opa - sint (block minV 1 0).opb) := by
  unfold Representable; decide +kernel

theorem witness_AbsIsMagnitude :
    sint (block (minV + 1) 0 0).opa ≠ -(2 ^ 255) ∧ sint (block minV 0 0).opa = -(2 ^ 255) := by
  decide +kernel

theorem witness_AvgRoundsDown :
    2 * minV ≤ sint (block minV minV 0).opa + sint (block minV minV 0).opb ∧
    sint (block minV minV 0).opa + sint (block minV minV 0).opb < 2 * minV + 2 := by
  decide +kernel

theorem witness_FloorIsGreatestWholeBelow :
    sint (block (minWhole - 1) 0 0).opa < minWhole ∧
    minWhole ≤ sint (block minWhole 0 0).opa ∧ 10 ^ 18 ∣ minWhole ∧
    minWhole ≤ sint (block minWhole 0 0).opa ∧ sint (block minWhole 0 0).opa < minWhole + 10 ^ 18 := by
  decide +kernel

theorem witness_CeilIsLeastWholeAbove :
    maxWhole < sint (block (maxWhole + 1) 0 0).opa ∧
    sint (block maxWhole 0 0).opa ≤ maxWhole ∧ 10 ^ 18 ∣ maxWhole ∧
    sint (block maxWhole 0 0).opa ≤ maxWhole ∧ maxWhole < sint (block maxWhole 0 0).opa + 10 ^ 18 := by
  decide +kernel

theorem witness_FracKeepsTheSign :
    10 ^ 18 ∣ sint (block minV 0 0).opa - -792003956564819968 ∧
    (-792003956564819968 : Int).natAbs < 10 ^ 18 ∧
    (0 ≤ sint (block minV 0 0).opa → (0 : Int) ≤ -792003956564819968) ∧
    (sint (block minV 0 0).opa ≤ 0 → (-792003956564819968 : Int) ≤ 0) := by
  decide +kernel

theorem witness_FromintScalesOrOverflows :
    Representable (sint (block
      57896044618658097711785492504343953926634992332820282019728 0 0).opa * 10 ^ 18) ∧
    ¬ Representable (sint (block
      57896044618658097711785492504343953926634992332820282019729 0 0).opa * 10 ^ 18) := by
  unfold Representable; decide +kernel

theorem witness_TointTruncatesTowardZero :
    (-1 : Int).natAbs * 10 ^ 18 ≤ (sint (block (-one - one / 2) 0 0).opa).natAbs ∧
    (sint (block (-one - one / 2) 0 0).opa).natAbs < ((-1 : Int).natAbs + 1) * 10 ^ 18 ∧
    (0 ≤ sint (block (-one - one / 2) 0 0).opa → (0 : Int) ≤ -1) ∧
    (sint (block (-one - one / 2) 0 0).opa ≤ 0 → (-1 : Int) ≤ 0) := by
  decide +kernel

theorem witness_TointUndoesFromint : Succeeds .fromint (block (-1) 0 0) (-one) :=
  succeeds_of_evaluate (by decide +kernel) (by decide) (by decide)

theorem witness_SqrtIsFloorRoot :
    sint (block (-1) 0 0).opa < 0 ∧
    2 ^ 255 - 1 < sint (block
      57896044618658097711785492504343953926634992332820282019729 0 0).opa * 10 ^ 18 ∧
    (let x := sint (block 57896044618658097711785492504343953926634992332820282019728 0 0).opa
     let r : Int := 240615969168004511545033772477625056927
     0 ≤ r ∧ r * r ≤ x * 10 ^ 18 ∧ x * 10 ^ 18 < (r + 1) * (r + 1) ∧
      x * 10 ^ 18 ≤ 2 ^ 255 - 1) := by
  decide +kernel

theorem witness_GmIsFloorRootOfProduct :
    ¬ Representable (sint (block (-1) minV 0).opa * sint (block (-1) minV 0).opb) ∧
    (Representable (sint (block 1 minV 0).opa * sint (block 1 minV 0).opb) ∧
      sint (block 1 minV 0).opa * sint (block 1 minV 0).opb < 0) ∧
    (let p := sint (block maxV 1 0).opa * sint (block maxV 1 0).opb
     let r : Int := 240615969168004511545033772477625056927
     (-(2 ^ 255) ≤ p ∧ p ≤ 2 ^ 255 - 1) ∧ 0 ≤ r ∧ r * r ≤ p ∧ p < (r + 1) * (r + 1)) := by
  unfold Representable; decide +kernel

theorem witness_PowuFollowsTheBinaryMethod :
    sint (block minV 0 0).opa = -(2 ^ 255) ∧ sint (block maxV 0 0).opa ≠ -(2 ^ 255) := by
  decide +kernel

theorem witness_PowuCornerCases :
    (sint (block 0 0 0).opa ≠ -(2 ^ 255) ∧ uint (block 0 0 0).opb = 0) ∧
    (sint (block maxV 1 0).opa ≠ -(2 ^ 255) ∧ uint (block maxV 1 0).opb = 1) ∧
    (sint (block 0 1 0).opa = 0 ∧ 1 ≤ uint (block 0 1 0).opb) ∧
    (sint (block (2 * one) 195 0).opa = 2 * 10 ^ 18 ∧ uint (block (2 * one) 195 0).opb ≤ 195) ∧
    (sint (block (2 * one) 196 0).opa = 2 * 10 ^ 18 ∧ 196 ≤ uint (block (2 * one) 196 0).opb) := by
  decide +kernel

theorem witness_PowIsLog2MulExp2 :
    (sint (block 0 0 0).opa = 0 ∧ sint (block 0 0 0).opb = 0) ∧
    (sint (block 0 minV 0).opa = 0 ∧ sint (block 0 minV 0).opb ≠ 0) ∧
    sint (block (-1) 0 0).opa ≠ 0 := by
  decide +kernel

theorem witness_SquareOfSqrtIsBelow : Succeeds .sqrt (block (2 * one) 0 0) 1414213562373095048 :=
  succeeds_of_evaluate (by decide +kernel) (by decide) (by decide)

theorem witness_Log2DomainAndRange :
    sint (block 0 0 0).opa ≤ 0 ∧ 0 < sint (block 1 0 0).opa := by
  decide +kernel

theorem witness_Log2IsTheWeightedBitSum :
    (2 ^ 195 * 10 ^ 18 ≤ 2 ^ 255 - 1 ∧ 2 ^ 255 - 1 < 2 ^ (195 + 1) * 10 ^ 18 ∧
      sint (block maxV 0 0).opa = (2 ^ 255 - 1 : Nat)) ∧
    (2 ^ 59 * 10 ^ 18 ≤ 10 ^ 36 ∧ 10 ^ 36 < 2 ^ (59 + 1) * 10 ^ 18 ∧
      0 < sint (block 1 0 0).opa ∧ sint (block 1 0 0).opa < 10 ^ 18 ∧
      (10 : Int) ^ 36 / sint (block 1 0 0).opa = (10 ^ 36 : Nat)) := by
  decide +kernel

theorem witness_Log2IsExactAtPowersOfTwo :
    (0 < 18 ∧ (3814697265625 : Int) * 2 ^ 18 = 10 ^ 18) ∧
    sint (block (2 ^ 195 * one) 0 0).opa = 2 ^ 195 * 10 ^ 18 := by
  decide +kernel

theorem witness_Log2NeverExceedsTheTrueLogarithm :
    (10 : Int) ^ 18 ≤ 3 * 10 ^ 18 ∧ log2S defaultParams (3 * 10 ^ 18) = .ok 1584962500721156166 :=
  ⟨by decide, rfl⟩

theorem witness_Exp2CoreIsTheExactFloor :
    0 < 192 * 10 ^ 18 ∧ 192 * 10 ^ 18 - 1 < 192 * 10 ^ 18 := by decide

theorem witness_Exp2CoreMeetsItsRequirements :
    192 * 10 ^ 18 - 1 < 192 * 10 ^ 18 ∧ 191 ≤ 191 ∧ (0 ≤ 1 ∧ 1 < 192 * 10 ^ 18) := by decide

theorem witness_Exp2OverItsWholeRange :
    192 * 10 ^ 18 ≤ sint (block (192 * one) 0 0).opa ∧
    (0 ≤ sint (block (192 * one - 1) 0 0).opa ∧ sint (block (192 * one - 1) 0 0).opa < 192 * 10 ^ 18) ∧
    (sint (block (-59794705707972522261) 0 0).opa < 0 ∧
      -59794705707972522261 ≤ sint (block (-59794705707972522261) 0 0).opa) ∧
    sint (block (-59794705707972522262) 0 0).opa < -59794705707972522261 := by
  decide +kernel

theorem witness_ExpBoundsAreExact :
    (∃ p, 0 ≤ expMax ∧ mulS expMax log2E = .ok p) ∧
    (∃ p, 0 ≤ expZeroBound defaultParams ∧ mulS (-expZeroBound defaultParams) log2E = .ok p) :=
  ⟨⟨192000000000000000000, by decide, by decide +kernel⟩,
    ⟨-59794705707972522261, by decide, by decide +kernel⟩⟩

theorem witness_ExpIsExp2OfMul :
    sint (block (-41446531673892822323) 0 0).opa < -41446531673892822322 ∧
    133084258667509499441 ≤ sint (block 133084258667509499441 0 0).opa ∧
    (-41446531673892822322 ≤ sint (block (-41446531673892822322) 0 0).opa ∧
      sint (block (-41446531673892822322) 0 0).opa < 133084258667509499441) := by
  decide +kernel

theorem witness_LnIsLog2DivLog2E :
    sint (block 0 0 0).opa ≤ 0 ∧ 0 < sint (block 1 0 0).opa := by
  decide +kernel

theorem witness_Log10TableElseLog2Div :
    sint (block 0 0 0).opa ≤ 0 ∧ (76 ≤ 76 ∧ sint (block (10 ^ 76) 0 0).opa = 10 ^ 76) ∧
    (0 < sint (block 2 0 0).opa ∧ ∀ k : Nat, k ≤ 76 → sint (block 2 0 0).opa ≠ 10 ^ k) := by
  decide +kernel

/-- Parameters with LOG2_ITERS 0 and a coarser EXP2_CORE, beside the defaults. -/
theorem witness_ErrorsIgnorePrecisionParameters :
    (let P : Params := { defaultParams with log2Iters := 0, exp2Core := fun _ => 1 }
     P.exp2NegCutoff = defaultParams.exp2NegCutoff ∧ P.log2Ten = defaultParams.log2Ten) ∧
    Representable 0 ∧ Instr.log10 ∈ [Instr.log2, .exp2, .exp, .ln, .log10] := by
  refine ⟨⟨rfl, rfl⟩, ?_, by decide⟩
  unfold Representable; decide

theorem witness_ConstReadsTheTable : (8 : BitVec 8).toNat ≤ 8 := by decide

/-! ### Witnesses: the port and steps -/

theorem witness_IllegalWordsRaiseIllegalCommand : ¬ LegalWord 0 := by
  unfold LegalWord
  have h : (0 : Word).toNat = 0 := rfl
  rw [h]
  rintro (h1 | h1 | h1 | h1 | ⟨sel, h1⟩) <;> omega

/-- EXP2 on two states that differ in the registers it does not read, under parameters that differ in
those it does not depend on. -/
theorem witness_OnlyListedOperandsMatter :
    (let Q : Params := { defaultParams with log2Iters := 0, log2Ten := 1, resetData := fun _ => 7 }
     (Instr.exp2 ∈ [Instr.pow, .log2, .ln, .log10] → defaultParams.log2Iters = Q.log2Iters) ∧
     (Instr.exp2 ∈ [Instr.pow, .exp2, .exp] →
       defaultParams.exp2Core = Q.exp2Core ∧ defaultParams.exp2NegCutoff = Q.exp2NegCutoff) ∧
     (Instr.exp2 = .log10 → defaultParams.log2Ten = Q.log2Ten)) ∧
    (readsA .exp2 = true → (block one 0 0).opa = (block one 2 3).opa) ∧
    (readsB .exp2 = true → (block one 0 0).opb = (block one 2 3).opb) ∧
    (readsC .exp2 = true → (block one 0 0).opc = (block one 2 3).opc) :=
  ⟨⟨by decide, fun _ => ⟨rfl, rfl⟩, by decide⟩, fun _ => rfl, by decide, by decide⟩

theorem witness_RepeatedCommandChangesNothing : ∃ t, portWrite defaultParams idxCmd 0x04 (block one 0 0) = .next t :=
  ⟨_, rfl⟩

theorem witness_PortReadsHaveNoSideEffect : ∀ addr : BitVec 3,
    (withProgram [.memRead 0 addr 32]).resets = [] ∧
    (withProgram [.memRead 0 addr 32]).program[(withProgram [.memRead 0 addr 32]).pc]? =
      some (.memRead 0 addr 32) := fun _ => ⟨rfl, rfl⟩

theorem witness_OtherWidthsAreRefused :
    31 ≠ 32 ∧ 33 ≠ 32 ∧ (withProgram [.memRead 0 3 31]).resets = [] ∧
    (withProgram [.memRead 0 3 31]).program[(withProgram [.memRead 0 3 31]).pc]? =
      some (.memRead 0 3 31) ∧
    (withProgram [.memWrite 5 33 (.raw 0)]).program[(withProgram [.memWrite 5 33 (.raw 0)]).pc]? =
      some (.memWrite 5 33 (.raw 0)) := ⟨by decide, by decide, rfl, rfl, rfl⟩

/-- A write of index 7, the last that is not CMD. -/
theorem witness_PortWritesTouchOneRegister :
    let s := withProgram [.memWrite 7 32 (.hex 5)]
    (7 : BitVec 3) ≠ idxCmd ∧ s.resets = [] ∧ s.program[s.pc]? = some (.memWrite 7 32 (.hex 5)) ∧
      hostValue s (.hex 5) = .ok 5 := ⟨by decide, rfl, rfl, rfl⟩

/-- A STATUS write while RES_VALID is 1: no command and no reset. -/
theorem witness_OnlyCommandsAndResetWriteOutcomes :
    let s := { withProgram [.memWrite 4 32 (.raw 0)] with status := 0x4 }
    (∃ t, step s = .next t) ∧ resetDue s = false ∧ resValid s.status = true ∧
      ∀ n v, s.program[s.pc]? ≠ some (.memWrite idxCmd n v) := by
  refine ⟨⟨_, rfl⟩, rfl, rfl, fun n v h => ?_⟩
  simp [withProgram, block, State.reset, idxCmd] at h

theorem witness_StepRunsTheDecodedCommand :
    let s := withProgram [.memWrite idxCmd 32 (.hex 0x12)]
    s.program[s.pc]? = some (.memWrite idxCmd 32 (.hex 0x12)) ∧ hostValue s (.hex 0x12) = .ok 0x12 ∧
    decode 0x12 = .ok .abs ∧ (s.resets = [] ∧ ∃ t, exec .abs s = .next t) ∧
    (let r := { s with resets := [0 + 1] }
     r.resets = (0 + 1) :: [] ∧ ∃ t, exec .abs { r with resets := [0] } = .next t) ∧
    ∀ P, ∃ t, execAt P .abs s = .next t :=
  ⟨rfl, rfl, rfl, ⟨rfl, _, rfl⟩, ⟨rfl, _, rfl⟩, fun _ => ⟨_, rfl⟩⟩

/-- `fx` literals at 18 digits and at none, inside and outside the domain of `enc`, and its two ends as
raw integers. -/
theorem witness_HostOnlyStatements_literals :
    (18 ≤ 18 ∧ (1 : Int) * 10 ^ 18 = 1 * 10 ^ 18 ∧ -(2 ^ 255) ≤ (1 : Int) ∧ (1 : Int) ≤ 2 ^ 256 - 1) ∧
    (0 ≤ 18 ∧ (10 ^ 78 * 10 ^ 18 : Int) * 10 ^ 0 = 10 ^ 78 * 10 ^ 18 ∧
      ¬ (-(2 ^ 255) ≤ (10 ^ 78 * 10 ^ 18 : Int) ∧ (10 ^ 78 * 10 ^ 18 : Int) ≤ 2 ^ 256 - 1)) ∧
    18 < 19 ∧
    (-(2 ^ 255) ≤ (-(2 ^ 255) : Int) ∧ (-(2 ^ 255) : Int) ≤ 2 ^ 256 - 1) ∧
    (-(2 ^ 255) ≤ (2 ^ 256 - 1 : Int) ∧ (2 ^ 256 - 1 : Int) ≤ 2 ^ 256 - 1) ∧
    ¬ (-(2 ^ 255) ≤ (2 ^ 256 : Int) ∧ (2 ^ 256 : Int) ≤ 2 ^ 256 - 1) := by
  decide +kernel

theorem witness_HostOnlyStatements :
    ((withProgram [.li 7 (.raw (-(2 ^ 255)))]).resets = [] ∧
      ∃ w, hostValue (withProgram [.li 7 (.raw (-(2 ^ 255)))]) (.raw (-(2 ^ 255))) = .ok w) ∧
    ((withProgram [.li 7 (.fx 1 19)]).program[(withProgram [.li 7 (.fx 1 19)]).pc]? =
        some (.li 7 (.fx 1 19)) ∧
      hostValue (withProgram [.li 7 (.fx 1 19)]) (.fx 1 19) = .error .fxDigits) ∧
    ((withProgram [.memWrite 5 32 (.raw (2 ^ 256))]).program[
        (withProgram [.memWrite 5 32 (.raw (2 ^ 256))]).pc]? = some (.memWrite 5 32 (.raw (2 ^ 256))) ∧
      hostValue (withProgram [.memWrite 5 32 (.raw (2 ^ 256))]) (.raw (2 ^ 256)) =
        .error .encUndefined) ∧
    (withProgram [.subi 0 7 1]).program[(withProgram [.subi 0 7 1]).pc]? = some (.subi 0 7 1) ∧
    (withProgram [.andi 0 7 3]).program[(withProgram [.andi 0 7 3]).pc]? = some (.andi 0 7 3) ∧
    (withProgram [.bnz 0 0]).program[(withProgram [.bnz 0 0]).pc]? = some (.bnz 0 0) ∧
    (withProgram [.beqz 0 0]).program[(withProgram [.beqz 0 0]).pc]? = some (.beqz 0 0) ∧
    (withProgram [.j 9]).program[(withProgram [.j 9]).pc]? = some (.j 9) :=
  ⟨⟨rfl, _, rfl⟩, ⟨rfl, rfl⟩, ⟨rfl, rfl⟩, rfl, rfl, rfl, rfl, rfl⟩

theorem witness_EndedProgramIsIdle :
    (withProgram [.halt]).resets = [] ∧
    (withProgram [.halt]).program[(withProgram [.halt]).pc]? = some .halt ∧
    (withProgram []).program[(withProgram []).pc]? = none := ⟨rfl, rfl, rfl⟩

theorem witness_BerrBranchesOnError :
    (withProgram (expandLine (fun _ => 9) (.berr 1))).resets = [] ∧
    ∀ k, k < 3 → (withProgram (expandLine (fun _ => 9) (.berr 1))).program[0 + k]? =
      (expandLine (fun _ => 9) (.berr 1))[k]? :=
  ⟨rfl, fun k _ => by rw [Nat.zero_add]; rfl⟩

theorem witness_MovFeedsRes : ∀ r : RegName, r = .opa ∨ r = .opb ∨ r = .opc →
    (withProgram (expandLine id (.mov r))).resets = [] ∧
    ∀ k, k < 2 → (withProgram (expandLine id (.mov r))).program[0 + k]? =
      (expandLine id (.mov r))[k]? :=
  fun _ _ => ⟨rfl, fun k _ => by rw [Nat.zero_add]; rfl⟩

theorem witness_ClrstkClearsTheStickyBits :
    (withProgram (expandLine id .clrstk)).resets = [] ∧
    (withProgram (expandLine id .clrstk)).program[(withProgram (expandLine id .clrstk)).pc]? =
      (expandLine id .clrstk)[0]? := ⟨rfl, rfl⟩

theorem witness_ResetClearsStatus :
    { block one one one with resets := [0, 5] }.resets = 0 :: [5] ∧
    (State.reset.withFetchWord 256 0x0640).resets = [] ∧
    ∃ t, step (State.reset.withFetchWord 256 0x0640) = .next t := ⟨rfl, rfl, _, rfl⟩

theorem witness_StepKeepsTheInvariant : Inv Config.resetData State.reset ∧ step State.reset = .next State.reset :=
  ⟨⟨by decide, fun _ => rfl⟩, rfl⟩

/-- Two machines just after reset with different contents of OPA, about to run CONST. -/
theorem witness_ReadyStepIgnoresResetContents :
    Agree Written.none (State.reset.withFetchWord 256 0x0640)
      { State.reset.withFetchWord 256 0x0640 with opa := 7 } ∧
    stepReady Written.none (State.reset.withFetchWord 256 0x0640) = true := by
  refine ⟨⟨rfl, rfl, rfl, rfl, rfl, ?_, ?_, ?_, ?_⟩, by decide +kernel⟩
  · intro h; cases h
  · intro h; cases h
  · intro h; cases h
  · intro _; rfl

theorem witness_SafeRunIgnoresResetContents :
    Agree Written.none (State.reset.withFetchWord 256 0x0640)
      { State.reset.withFetchWord 256 0x0640 with opa := 7 } ∧
    safeFor 1 Written.none (State.reset.withFetchWord 256 0x0640) = true ∧
    ∃ s', Host.Core.run Sys2Proof.core 1 (State.reset.withFetchWord 256 0x0640) = .next s' :=
  ⟨witness_ReadyStepIgnoresResetContents.1, by decide +kernel, _, rfl⟩

/-- 70_reset R232: a command that reads an operand nothing has written is not ready. -/
theorem test_unwritten_operand_is_not_ready :
    stepReady Written.none (State.reset.withFetchWord 256 0x12) = false := by decide +kernel

end Sys2Proof.Tests
end

section
/-! The scope's statements (00_scope): the readings of a pattern, the bounds of EXP, what a command
depends on, and the fixed constants. -/
namespace Sys2Proof.Machine

open Sys2Proof.Claims

/-! ### The readings of a pattern (R13) -/

/-- The n low bits of a number at their weights: one more bit adds its weight. -/
theorem mod_two_pow_eq_sum_testBit (x n : Nat) :
    x % 2 ^ n = ∑ k ∈ Finset.range n, (x.testBit k).toNat * 2 ^ k := by
  induction n with
  | zero => simp [Nat.mod_one]
  | succ n ih =>
    rw [Finset.sum_range_succ, ← ih, Nat.mod_pow_succ, Nat.toNat_testBit, Nat.mul_comm]

theorem uint_eq_sum_bits (v : Word) :
    uint v = ∑ k ∈ Finset.range 256, (v.getLsbD k).toNat * 2 ^ k :=
  (Nat.mod_eq_of_lt (uint_lt v)).symm.trans (mod_two_pow_eq_sum_testBit v.toNat 256)

theorem sint_eq_uint_sub_top_bit (v : Word) :
    sint v = (uint v : Int) - 2 ^ 256 * ((v.getLsbD 255).toNat : Int) := by
  have top : v.msb = v.getLsbD 255 := BitVec.msb_eq_getLsbD_last v
  rw [sint, uint, BitVec.toInt_eq_msb_cond, top]
  cases v.getLsbD 255 <;> simp

theorem uint_enc_eq_emod (n : Int) : (uint (enc n) : Int) = n % 2 ^ 256 := by
  rw [uint, enc, BitVec.toNat_ofInt, Int.toNat_of_nonneg (Int.emod_nonneg n (by simp))]
  rfl

/-! ### The product of EXP and its bounds (R11) -/

/-- A product that exists is the rounded magnitude with the sign put back (40 R83). -/
theorem eq_of_mulS_ok {x y p : Int} (h : mulS x y = .ok p) :
    p = applySign ((2 * (x.natAbs * y.natAbs) + scale) / (2 * scale)) (isNeg x != isNeg y) := by
  have hdom : ¬ (x = -(2 ^ 255) ∨ y = -(2 ^ 255)) := fun hd => by
    rw [mulS_domain hd] at h
    cases h
  rw [mulS_eq (fun hx => hdom (.inl hx)) (fun hy => hdom (.inr hy))] at h
  split at h
  · exact (Except.ok.inj h).symm
  · cases h

/-- The magnitude of the product of `±n` by LOG2_E, rounded half up (40 R83). -/
def log2EMagnitude (n : Nat) : Nat :=
  (2 * (n * log2E.natAbs) + scale) / (2 * scale)

theorem log2EMagnitude_eq (n : Nat) : log2EMagnitude n =
    (2 * (n * 1442695040888963407) + 1000000000000000000) / 2000000000000000000 := by
  have hs : scale = 1000000000000000000 := rfl
  have hl : log2E.natAbs = 1442695040888963407 := rfl
  rw [log2EMagnitude, hs, hl]

theorem isNeg_log2E : isNeg log2E = false := rfl

theorem eq_of_mulS_natCast_log2E {n : Nat} {p : Int} (h : mulS n log2E = .ok p) :
    p = log2EMagnitude n := by
  have hneg : isNeg (n : Int) = false := decide_eq_false (by omega)
  rw [eq_of_mulS_ok h, hneg, isNeg_log2E, Int.natAbs_natCast, log2EMagnitude]
  simp [applySign]

theorem eq_of_mulS_neg_natCast_log2E {n : Nat} {p : Int} (h : mulS (-n) log2E = .ok p) :
    p = -log2EMagnitude n := by
  rw [eq_of_mulS_ok h, isNeg_log2E, Int.natAbs_neg, Int.natAbs_natCast, ← log2EMagnitude]
  rcases Nat.eq_zero_or_pos n with rfl | hn
  · rfl
  · have hneg : isNeg (-(n : Int)) = true := decide_eq_true (by omega)
    simp [applySign, hneg]

/-- The magnitude reaches 192.0 exactly from EXP_MAX on. -/
theorem le_log2EMagnitude_iff (n : Nat) :
    192000000000000000000 ≤ log2EMagnitude n ↔ 133084258667509499441 ≤ n := by
  rw [log2EMagnitude_eq]
  omega

/-- The magnitude is within the default EXP2_NEG_CUTOFF exactly up to EXP_ZERO_BOUND. -/
theorem log2EMagnitude_le_cutoff_iff (n : Nat) :
    log2EMagnitude n ≤ 59794705707972522261 ↔ n ≤ 41446531673892822322 := by
  rw [log2EMagnitude_eq]
  omega

theorem expZeroBound_default : expZeroBound defaultParams = 41446531673892822322 := by decide

/-! ### What a command reads (30_encoding R65) -/

theorem readsA_iff (i : Instr) : readsA i = true ↔ ∀ sel, i ≠ .const sel := by
  cases i <;> simp [readsA]

theorem readsB_iff (i : Instr) : readsB i = true ↔
    i ∈ [Instr.muldiv, .muldivfp, .mul, .div, .add, .sub, .avg, .gm, .powu, .pow] := by
  cases i <;> simp [readsB]

theorem readsC_iff (i : Instr) : readsC i = true ↔ i = .muldiv := by
  cases i <;> simp [readsC]

/-- The value of a command is a function of the operands it reads (R17). -/
theorem evaluate_eq_of_read_operands (P : Params) (i : Instr) {a b c a' b' c' : Word}
    (ha : readsA i = true → a = a') (hb : readsB i = true → b = b')
    (hc : readsC i = true → c = c') : evaluate P i a b c = evaluate P i a' b' c' := by
  cases i with
  | muldiv => rw [ha rfl, hb rfl, hc rfl]
  | muldivfp | mul | div | add | sub | avg | gm | powu | pow => rw [ha rfl, hb rfl]; rfl
  | abs | floor | ceil | frac | fromint | toint | sqrt | log2 | exp2 | exp | ln | log10 =>
    rw [ha rfl]; rfl
  | const => rfl

/-! ### Which parameters a rule names (R10) -/

section
variable {P Q : Params}

theorem log2S_eq_of_params (h : P.log2Iters = Q.log2Iters) (x : Int) : log2S P x = log2S Q x := by
  simp only [log2S, log2Reduced, h]

theorem exp2S_eq_of_params (hcore : P.exp2Core = Q.exp2Core)
    (hcut : P.exp2NegCutoff = Q.exp2NegCutoff) (x : Int) : exp2S P x = exp2S Q x := by
  simp only [exp2S, exp2Pos, hcore, hcut]

theorem expS_eq_of_params (hcore : P.exp2Core = Q.exp2Core)
    (hcut : P.exp2NegCutoff = Q.exp2NegCutoff) (x : Int) : expS P x = expS Q x := by
  have hexp2 : exp2S P = exp2S Q := funext (exp2S_eq_of_params hcore hcut)
  rw [expS, expS, expZeroBound, expZeroBound, hcut, hexp2]

theorem lnS_eq_of_params (h : P.log2Iters = Q.log2Iters) (x : Int) : lnS P x = lnS Q x := by
  rw [lnS, lnS, log2S_eq_of_params h]

theorem log10S_eq_of_params (h : P.log2Iters = Q.log2Iters) (hten : P.log2Ten = Q.log2Ten)
    (x : Int) : log10S P x = log10S Q x := by
  rw [log10S, log10S, log2S_eq_of_params h, hten]

theorem powS_eq_of_params (h : P.log2Iters = Q.log2Iters) (hcore : P.exp2Core = Q.exp2Core)
    (hcut : P.exp2NegCutoff = Q.exp2NegCutoff) (x y : Int) : powS P x y = powS Q x y := by
  have hexp2 : exp2S P = exp2S Q := funext (exp2S_eq_of_params hcore hcut)
  rw [powS, powS, log2S_eq_of_params h, hexp2]

/-- The value of a command is a function of the parameters its rule names. -/
theorem evaluate_eq_of_named_params (i : Instr) (a b c : Word)
    (hlog2 : i ∈ [Instr.pow, .log2, .ln, .log10] → P.log2Iters = Q.log2Iters)
    (hexp2 : i ∈ [Instr.pow, .exp2, .exp] →
      P.exp2Core = Q.exp2Core ∧ P.exp2NegCutoff = Q.exp2NegCutoff)
    (hten : i = .log10 → P.log2Ten = Q.log2Ten) : evaluate P i a b c = evaluate Q i a b c := by
  cases i with
  | pow =>
    obtain ⟨hcore, hcut⟩ := hexp2 (by decide)
    exact congrArg ofMagnitude (powS_eq_of_params (hlog2 (by decide)) hcore hcut _ _)
  | log2 => exact log2S_eq_of_params (hlog2 (by decide)) _
  | exp2 =>
    obtain ⟨hcore, hcut⟩ := hexp2 (by decide)
    exact congrArg ofMagnitude (exp2S_eq_of_params hcore hcut _)
  | exp =>
    obtain ⟨hcore, hcut⟩ := hexp2 (by decide)
    exact congrArg ofMagnitude (expS_eq_of_params hcore hcut _)
  | ln => exact lnS_eq_of_params (hlog2 (by decide)) _
  | log10 => exact log10S_eq_of_params (hlog2 (by decide)) (hten rfl) _
  | muldiv | muldivfp | mul | div | add | sub | abs | avg | floor | ceil | frac | fromint | toint
  | sqrt | gm | powu | const => rfl

end

/-! ### What an ending leaves (60_exceptions R205, R206) -/

theorem errCode_ne_zero (e : CmdError) : errCode e ≠ 0 := by cases e <;> decide

/-- LAST_ERR after a command is a function of what its rule evaluated to. -/
theorem lastErr_finish (r : Except CmdError Int) (op : BitVec 8) (s : State) :
    lastErr (finish r (noteOp op s)).status = (errorOf r).elim 0 errCode := by
  cases r <;> simp [errorOf]

/-- RES after a command that succeeds is a function of what its rule evaluated to. -/
theorem finish_res_eq_of_lastErr_zero {r : Except CmdError Int} {op : BitVec 8} {s : State}
    (h : lastErr (finish r (noteOp op s)).status = 0) (t : State) :
    (finish r (noteOp op s)).res = (finish r (noteOp op t)).res := by
  cases r with
  | ok n => rfl
  | error e =>
    rw [lastErr_finish] at h
    exact absurd h (errCode_ne_zero e)

end Sys2Proof.Machine
end

section
/-! The settled statements of 00_scope. -/
namespace Sys2Proof.Scope

open Sys2Proof.Machine Sys2Proof.Claims

/-- Settles O1: `uint` by induction on the number of low bits, `sint` by the top bit, and `enc` as
their inverse by the laws of the interpretations. -/
theorem patternsReadAsNumbers : Obligations.PatternsReadAsNumbers := by
  refine ⟨uint_eq_sum_bits, sint_eq_uint_sub_top_bit, uint_enc_eq_emod, fun n hn => ?_, fun n hn => ?_⟩
  · obtain ⟨hmin, hmax⟩ := hn
    exact sint_enc hmin (by omega)
  · exact uint_enc (by omega)

/-- Settles O36: the product of `±t` by LOG2_E has magnitude `log2EMagnitude t`, which passes 192.0
and the default cutoff exactly at the two bounds. -/
theorem expBoundsAreExact : Obligations.ExpBoundsAreExact := by
  refine ⟨rfl, expZeroBound_default, fun t p ht h => ?_, fun t p ht h => ?_,
    ⟨192000000000000000000, by decide⟩, ⟨-59794705707972522261, by decide⟩⟩
  · obtain ⟨n, rfl⟩ := Int.eq_ofNat_of_zero_le ht
    have hiff := le_log2EMagnitude_iff n
    rw [eq_of_mulS_natCast_log2E h, expMax]
    omega
  · obtain ⟨n, rfl⟩ := Int.eq_ofNat_of_zero_le ht
    have hiff := log2EMagnitude_le_cutoff_iff n
    rw [eq_of_mulS_neg_natCast_log2E h, expZeroBound_default]
    omega

/-- Settles O44: the two commands evaluate to one value, through the operands read and the parameters
named, and an ending writes LAST_ERR and RES from that value alone. -/
theorem onlyListedOperandsMatter : Obligations.OnlyListedOperandsMatter := by
  refine ⟨fun i => ⟨readsC_iff i, readsB_iff i, readsA_iff i⟩, ?_⟩
  intro P Q i s t hlog2 hexp2 hten ha hb hc
  have heval : evaluate P i s.opa s.opb s.opc = evaluate Q i t.opa t.opb t.opc :=
    (evaluate_eq_of_read_operands P i ha hb hc).trans
      (evaluate_eq_of_named_params i _ _ _ hlog2 hexp2 hten)
  refine ⟨_, _, execAt_next P i s, execAt_next Q i t, ?_⟩
  rw [heval]
  exact ⟨by rw [lastErr_finish, lastErr_finish], fun h => finish_res_eq_of_lastErr_zero h t⟩

/-- Settles O2, by the laws of the constants. -/
theorem constantsAreTheSpecs : Obligations.ConstantsAreTheSpecs :=
  ⟨scale_eq, scale_eq_half.symm, minValue_eq, maxValue_eq, maxWhole_eq, minWhole_eq, rfl⟩

end Sys2Proof.Scope
end

section
/-! What a host statement, a reset count and a step do to RES, to STATUS and to the frame. -/
namespace Sys2Proof.Machine

/-! ### The two port accesses as statements (20_memory R46) -/

theorem execStmt_memRead (P : Params) (dst : Fin 8) (addr : BitVec 3) (s : State) :
    execStmt P (.memRead dst addr accessBytes) s =
      .next (advance (setH dst (readIndex s addr) s)) := by
  rw [execStmt, if_pos rfl]

theorem execStmt_memWrite (P : Params) (addr : BitVec 3) {v : HostValue} {w : Word} {s : State}
    (hv : hostValue s v = .ok w) :
    execStmt P (.memWrite addr accessBytes v) s = advanceAfter (portWrite P addr w s) := by
  rw [execStmt, if_pos rfl, hv]

/-! ### STATUS after a write that clears nothing -/

theorem clearSticky_zero (v : Word) : clearSticky 0 v = v := by
  refine word_ext fun k _ => ?_
  simp [getLsbD_clearSticky]

/-! ### No host step reads or writes the resets to come (log 6) -/

/-- `s` with other reset events to come. -/
def setResets (later : List Nat) (s : State) : State := { s with resets := later }

/-- A step's outcome with its next state, if there is one, turned by `f`. -/
def mapNext (f : State → State) : StepResult → StepResult
  | .next s => .next (f s)
  | .fault r => .fault r
  | .refused r => .refused r

theorem advanceAfter_mapNext_setResets (later : List Nat) (r : StepResult) :
    advanceAfter (mapNext (setResets later) r) = mapNext (setResets later) (advanceAfter r) := by
  cases r <;> rfl

theorem hostValue_setResets (later : List Nat) (s : State) (v : HostValue) :
    hostValue (setResets later s) v = hostValue s v := by
  cases v <;> rfl

theorem finish_noteOp_setResets (later : List Nat) (r : Except CmdError Int) (op : BitVec 8)
    (s : State) : finish r (noteOp op (setResets later s)) =
      setResets later (finish r (noteOp op s)) := by
  cases r <;> rfl

theorem writeIndex_setResets (later : List Nat) (addr : BitVec 3) (w : Word) (s : State) :
    writeIndex addr w (setResets later s) = setResets later (writeIndex addr w s) := by
  rcases addr_cases addr with h | h | h | h | h | h | h | h <;> subst h <;> rfl

theorem portWrite_setResets (P : Params) (later : List Nat) (addr : BitVec 3) (w : Word)
    (s : State) : portWrite P addr w (setResets later s) =
      mapNext (setResets later) (portWrite P addr w s) := by
  by_cases ha : addr = idxCmd
  · rw [ha, portWrite_cmd, portWrite_cmd, runWord_next, runWord_next, finish_noteOp_setResets]
    rfl
  · rw [portWrite_other P ha, portWrite_other P ha, writeIndex_setResets]
    rfl

theorem execStmt_setResets (P : Params) (later : List Nat) (st : HostStmt) (s : State) :
    execStmt P st (setResets later s) = mapNext (setResets later) (execStmt P st s) := by
  cases st with
  | memRead dst addr bytes =>
    simp only [execStmt]
    split <;> rfl
  | memWrite addr bytes v =>
    simp only [execStmt, hostValue_setResets, portWrite_setResets, advanceAfter_mapNext_setResets]
    split
    · cases hostValue s v <;> rfl
    · rfl
  | li dst v =>
    simp only [execStmt, hostValue_setResets]
    cases hostValue s v <;> rfl
  | bnz src target | beqz src target =>
    simp only [execStmt, mapNext, apply_ite (setResets later)]
    rfl
  | subi | andi | j | halt => rfl

theorem hostStep_setResets (P : Params) (later : List Nat) (s : State) :
    hostStep P (setResets later s) = mapNext (setResets later) (hostStep P s) := by
  cases hst : s.program[s.pc]? with
  | none => simp [hostStep, setResets, hst, mapNext]
  | some st =>
    rw [hostStep_of_stmt P hst, hostStep_of_stmt (s := setResets later s) P hst, execStmt_setResets]

/-- A step while a reset is due later is a host step with the count one lower. -/
theorem stepAt_setResets_succ (P : Params) (n : Nat) (later : List Nat) (s : State) :
    stepAt P (setResets ((n + 1) :: later) s) =
      mapNext (setResets (n :: later)) (hostStep P s) :=
  hostStep_setResets P (n :: later) s

/-! ### What a step can do to RES and STATUS -/

open Sys2Proof.Safety

/-- RES and STATUS across a host step from `s` to `t`: a statement that is no command (it can at most
clear sticky bits), or a write to CMD whose command commits or is rejected. -/
inductive OutcomeMove (s t : State) : Prop where
  | noCommand (w : Word) (res : t.res = s.res) (status : t.status = clearSticky w s.status)
  | commit (v : HostValue) (op : BitVec 8) (n : Int)
      (stmt : s.program[s.pc]? = some (.memWrite idxCmd accessBytes v))
      (res : t.res = enc n) (status : t.status = statusOk (putLastOp op s.status))
  | reject (v : HostValue) (op : BitVec 8) (e : CmdError)
      (stmt : s.program[s.pc]? = some (.memWrite idxCmd accessBytes v))
      (res : t.res = s.res) (status : t.status = statusRaise e (putLastOp op s.status))

theorem OutcomeMove.of_kept {s t : State} (hres : t.res = s.res) (hstatus : t.status = s.status) :
    OutcomeMove s t :=
  .noCommand 0 hres (by rw [hstatus, clearSticky_zero])

theorem OutcomeMove.of_writeIndex (addr : BitVec 3) (w : Word) (s : State) :
    OutcomeMove s (advance (writeIndex addr w s)) := by
  rcases writeIndex_cases addr w s with ⟨_, h⟩ | ⟨_, h⟩ | ⟨_, h⟩ | ⟨_, h⟩ | ⟨_, h⟩ <;> rw [h]
  case inr.inr.inr.inl => exact .noCommand w rfl rfl
  all_goals exact .of_kept rfl rfl

theorem OutcomeMove.of_setResets {later : List Nat} {s t : State}
    (h : OutcomeMove (setResets later s) t) : OutcomeMove s t := by
  cases h with
  | noCommand w res status => exact .noCommand w res status
  | commit v op n stmt res status => exact .commit v op n stmt res status
  | reject v op e stmt res status => exact .reject v op e stmt res status

theorem outcomeMove_of_hostStep {P : Params} {s t : State} (h : hostStep P s = .next t) :
    OutcomeMove s t := by
  rcases hostStep_cases h with ⟨_, rfl⟩ | ⟨st, hst, hexec⟩
  · exact .of_kept rfl rfl
  rcases execStmt_cases hexec with ⟨_, _, _, hres, hstatus, _⟩ | ⟨addr, w, v, _, _, _, rfl⟩ |
    ⟨w, v, rfl, _, rfl⟩
  · exact .of_kept hres hstatus
  · exact .of_writeIndex addr w s
  · cases evaluateWord P w s.opa s.opb s.opc with
    | ok n => exact .commit v (opField w) n hst rfl rfl
    | error e => exact .reject v (opField w) e hst rfl rfl

/-- A step is a reset event that was due or moves RES and STATUS as a host step does: counting down
to a later reset touches neither. -/
theorem outcomeMove_of_stepAt {P : Params} {s t : State} (h : stepAt P s = .next t) :
    (resetDue s = true ∧ t.res = P.resetData .res ∧ t.status = 0) ∨ OutcomeMove s t := by
  rcases stepAt_cases h with ⟨later, hresets, rfl⟩ | ⟨left, _, hhost⟩
  · exact .inl ⟨by rw [resetDue, hresets]; rfl, rfl, rfl⟩
  · exact .inr (.of_setResets (later := left) (outcomeMove_of_hostStep hhost))

/-! ### What a move of RES and STATUS keeps -/

namespace OutcomeMove
variable {s t : State}

/-- No command and no sticky clear takes RES_VALID back (10_state R27). -/
theorem resValid_mono (h : OutcomeMove s t) (hs : resValid s.status = true) :
    resValid t.status = true := by
  cases h with
  | noCommand w res status => rw [status, resValid_clearSticky, hs]
  | commit v op n stmt res status => rw [status, resValid_statusOk]
  | reject v op e stmt res status => rw [status, resValid_statusRaise, resValid_putLastOp, hs]

theorem outcome_kept_of_not_cmd (h : OutcomeMove s t)
    (hcmd : ∀ n v, s.program[s.pc]? ≠ some (.memWrite idxCmd n v)) :
    t.res = s.res ∧ lastErr t.status = lastErr s.status ∧ resValid t.status = resValid s.status ∧
      lastOp t.status = lastOp s.status := by
  cases h with
  | noCommand w res status =>
    rw [status]
    exact ⟨res, lastErr_clearSticky _ _, resValid_clearSticky _ _, lastOp_clearSticky _ _⟩
  | commit v op n stmt res status => exact absurd stmt (hcmd _ v)
  | reject v op e stmt res status => exact absurd stmt (hcmd _ v)

theorem keeps_inv {d : DataReg → Word} (h : OutcomeMove s t) (hs : Inv d s) : Inv d t := by
  obtain ⟨hreserved, hheld⟩ := hs
  cases h with
  | noCommand w res status =>
    refine ⟨?_, fun hv => res.trans (hheld ?_)⟩
    · rw [status]
      exact reservedClear_clearSticky w hreserved
    · rwa [status, resValid_clearSticky] at hv
  | commit v op n stmt res status =>
    refine ⟨?_, fun hv => ?_⟩
    · rw [status]
      exact reservedClear_statusOk op hreserved
    · rw [status, resValid_statusOk] at hv
      cases hv
  | reject v op e stmt res status =>
    refine ⟨?_, fun hv => res.trans (hheld ?_)⟩
    · rw [status]
      exact reservedClear_statusRaise e op hreserved
    · rwa [status, resValid_statusRaise, resValid_putLastOp] at hv

end OutcomeMove

/-- The invariant of a state whose STATUS is 0 and whose RES holds its reset contents (10_state
R34). -/
theorem inv_of_reset {d : DataReg → Word} {s : State} (hres : s.res = d .res)
    (hstatus : s.status = 0) : Inv d s :=
  ⟨by rw [hstatus]; exact reservedClear_zero, fun _ => hres⟩

theorem stepAt_keeps_inv {P : Params} {s t : State} (hs : Inv P.resetData s)
    (h : stepAt P s = .next t) : Inv P.resetData t := by
  rcases outcomeMove_of_stepAt h with ⟨_, hres, hstatus⟩ | hmove
  · exact inv_of_reset hres hstatus
  · exact hmove.keeps_inv hs

end Sys2Proof.Machine
end

section
/-! The settled statements of 10_state. -/
namespace Sys2Proof.StateLaws

open Sys2Proof.Machine Sys2Proof.Safety Sys2Proof.Claims

/-- Settles O58: a step is a reset event or a move of RES and STATUS, and both keep the invariant;
`step` is the step at the default parameters. -/
theorem stepKeepsTheInvariant : Obligations.StepKeepsTheInvariant :=
  ⟨fun _ _ hs h => stepAt_keeps_inv (P := defaultParams) hs h, fun _ _ _ => stepAt_keeps_inv⟩

/-- Settles O49: no reset is due, so the step is a move of RES and STATUS, which never clears
RES_VALID and touches the outcome only at a write to CMD. -/
theorem onlyCommandsAndResetWriteOutcomes : Obligations.OnlyCommandsAndResetWriteOutcomes := by
  intro s t h hdue
  rcases outcomeMove_of_stepAt h with ⟨hreset, _⟩ | hmove
  · rw [hdue] at hreset
    cases hreset
  · exact ⟨hmove.resValid_mono, hmove.outcome_kept_of_not_cmd⟩

/-- Settles O46: the value read is `readIndex`, evaluated at each of the eight indices. -/
theorem portReadsHaveNoSideEffect : Obligations.PortReadsHaveNoSideEffect := by
  intro s dst addr hresets hstmt
  refine ⟨readIndex s addr, ?_, ?_⟩
  · rw [step_of_no_resets hresets, hostStep_of_stmt _ hstmt]
    exact execStmt_memRead defaultParams dst addr s
  · refine ⟨?_, ?_, ?_, ?_, ?_, ?_⟩
    case refine_6 => rintro (rfl | rfl | rfl) <;> rfl
    all_goals rintro rfl; rfl

/-- Settles O47: off CMD a port write is `writeIndex`, evaluated at each index; the STATUS bits are
those of `clearSticky`, and `writeIndex` leaves the host's pc alone. -/
theorem portWritesTouchOneRegister : Obligations.PortWritesTouchOneRegister := by
  refine ⟨fun P s w => ⟨rfl, rfl, rfl, rfl, rfl, rfl,
    { s with status := clearSticky w s.status }, rfl, rfl, fun k hlo hhi => ?_, fun k hk => ?_⟩, ?_⟩
  · rw [getLsbD_clearSticky, decide_eq_true ⟨hlo, hhi⟩, Bool.and_true]
  · rw [getLsbD_clearSticky, decide_eq_false (by omega), Bool.and_false, Bool.not_false,
      Bool.and_true]
  · intro s addr v w hcmd hresets hstmt hv
    refine ⟨writeIndex addr w s, portWrite_other _ hcmd w s, ?_⟩
    have hexec : execStmt defaultParams (.memWrite addr 32 v) s =
        .next (advance (writeIndex addr w s)) := by
      rw [← accessBytes, execStmt_memWrite _ _ hv, portWrite_other _ hcmd]
      rfl
    rw [step_of_no_resets hresets, hostStep_of_stmt _ hstmt, hexec, advance, writeIndex_pc]

/-- Settles O56: the reset clauses are the definitions of the two resets, and a reset not yet due
commutes with the host step. -/
theorem resetClearsStatus : Obligations.ResetClearsStatus := by
  refine ⟨fun d => ⟨rfl, rfl, rfl, rfl, rfl⟩, rfl, ?_, ?_⟩
  · intro P s later hresets
    rw [stepAt, hresets]
    rfl
  · intro P s t n later hresets h
    rw [stepAt_of_no_resets P hresets] at h
    have hcount := stepAt_setResets_succ P n later s
    rw [h] at hcount
    exact hcount

/-- Settles O57: both reset states have STATUS 0 and their RESET_DATA in RES. -/
theorem resetMeetsTheInvariant : Obligations.ResetMeetsTheInvariant :=
  ⟨inv_of_reset reset_res reset_status, fun d => inv_of_reset (resetAt_res d) (resetAt_status d)⟩

end Sys2Proof.StateLaws
end

section
/-! The decoder on an encoded command and on a register's bytes, and a port access of a width that
does not exist. -/
namespace Sys2Proof

/-- Decode undoes encode: the word of a well-formed command passes each check of 30_encoding R63. -/
theorem decode_encode {i : Instr} (h : i.wellFormed = true) : decode (encode i) = .ok i := by
  obtain ⟨hrsv, _, hmap⟩ := Laws.CommandWord.all i
  rw [decode, if_neg (not_not_intro hrsv), hmap]
  cases i with
  | const sel =>
    have hsel : ¬ 8 < sel.toNat := Nat.not_lt.mpr (of_decide_eq_true h)
    simp [opcode, selector, hsel]
  | muldiv | muldivfp | mul | div | add | sub | abs | avg | floor | ceil | frac | fromint | toint
  | sqrt | gm | powu | pow | log2 | exp2 | exp | ln | log10 => simp [opcode, selector]

/-- The decoder reads from a register's bytes what it reads from the register (20_memory R44). -/
theorem decodeBytes_bytesOfWord (w : Word) : decodeBytes (bytesOfWord w) = (decode w).toOption := by
  rw [decodeBytes, wordOfBytes_bytesOfWord]

theorem getElem?_bytesOfWord (w : Word) {k : Nat} (hk : k < 32) :
    (bytesOfWord w)[k]? = some (byteOf w k) := by
  rw [bytesOfWord, List.getElem?_map, List.getElem?_range hk, Option.map_some]

end Sys2Proof

namespace Sys2Proof.Machine

theorem execStmt_memRead_refused (P : Params) (dst : Fin 8) (addr : BitVec 3) {n : Nat}
    (h : n ≠ accessBytes) (s : State) :
    execStmt P (.memRead dst addr n) s = .refused .accessWidth := by
  rw [execStmt, if_neg h]

theorem execStmt_memWrite_refused (P : Params) (addr : BitVec 3) {n : Nat} (h : n ≠ accessBytes)
    (v : HostValue) (s : State) :
    execStmt P (.memWrite addr n v) s = .refused .accessWidth := by
  rw [execStmt, if_neg h]

end Sys2Proof.Machine
end

section
/-! The settled statements of 20_memory. -/
namespace Sys2Proof.PortLaws

open Sys2Proof.Machine

/-- Settles O7: byte k is `byteOf`, and reading a command's word back from its bytes leaves the round
trip of the command word. -/
theorem bytesAreLittleEndian : Obligations.BytesAreLittleEndian := by
  refine ⟨fun w k hk => getElem?_bytesOfWord w hk, fun i hi => ?_⟩
  rw [decodeBytes_bytesOfWord, decode_encode hi]
  rfl

/-- Settles O45: a command leaves the operands it was evaluated on, so the repeated write evaluates
to the same outcome, and ending a command twice with one outcome is ending it once. -/
theorem repeatedCommandChangesNothing : Obligations.RepeatedCommandChangesNothing := by
  intro P w s t h
  rw [portWrite_cmd, runWord_next, Host.Outcome.next.injEq] at h ⊢
  have hoperands : t.opa = s.opa ∧ t.opb = s.opb ∧ t.opc = s.opc := by simp [← h]
  obtain ⟨ha, hb, hc⟩ := hoperands
  rw [ha, hb, hc, ← h, finish_noteOp_idem]

/-- Settles O48: with no reset to come the step is the host's statement, and both accesses check the
width first. -/
theorem otherWidthsAreRefused : Obligations.OtherWidthsAreRefused := by
  intro s addr n hn hresets
  rw [step_of_no_resets hresets]
  refine ⟨fun dst hstmt => ?_, fun v hstmt => ?_⟩
  · rw [hostStep_of_stmt _ hstmt, execStmt_memRead_refused _ _ _ hn]
  · rw [hostStep_of_stmt _ hstmt, execStmt_memWrite_refused _ _ hn]

end Sys2Proof.PortLaws
end

section
/-! The command word as a number, and the decoder as the inverse of the encoder (30_encoding R60 to
R63). -/
namespace Sys2Proof

open Sys2Proof.Claims

/-- Only CONST has a selector (R61). -/
theorem selector_eq_zero {i : Instr} (h : opcode i ≠ 0x40) : selector i = 0 := by
  cases i with
  | const sel => exact absurd rfl h
  | muldiv | muldivfp | mul | div | add | sub | abs | avg | floor | ceil | frac | fromint | toint
  | sqrt | gm | powu | pow | log2 | exp2 | exp | ln | log10 => rfl

/-- Only CONST has a field to check (R62). -/
theorem wellFormed_iff (i : Instr) :
    i.wellFormed = true ↔ (opcode i = 0x40 → (selector i).toNat ≤ 8) := by
  cases i with
  | const sel => simp [Instr.wellFormed, opcode, selector]
  | muldiv | muldivfp | mul | div | add | sub | abs | avg | floor | ceil | frac | fromint | toint
  | sqrt | gm | powu | pow | log2 | exp2 | exp | ln | log10 => simp [Instr.wellFormed, opcode]

/-- The words the decoder accepts are the encodings of the well-formed commands. -/
theorem decode_eq_ok_iff {w : Word} {i : Instr} :
    decode w = .ok i ↔ i.wellFormed = true ∧ encode i = w := by
  constructor
  · intro h
    obtain ⟨hrsv, hmap, hconst, hother⟩ := decode_ok h
    obtain ⟨hop, hsel⟩ := opcode_of_instrOfOpcode hmap
    by_cases h40 : opField w = 0x40
    · exact ⟨(wellFormed_iff i).2 fun _ => hsel h40 ▸ hconst h40,
        by rw [encode, hop, hsel h40, ← hrsv, word_fields]⟩
    · have hne : opcode i ≠ 0x40 := hop ▸ h40
      exact ⟨(wellFormed_iff i).2 fun hc => absurd hc hne,
        by rw [encode, hop, selector_eq_zero hne, ← hother h40, ← hrsv, word_fields]⟩
  · rintro ⟨hwf, rfl⟩
    exact decode_encode hwf

/-- The number of a word, from its fields (R60). -/
theorem word_toNat_eq_fields (w : Word) :
    w.toNat = (opField w).toNat + 256 * (selField w).toNat + 65536 * (rsvField w).toNat := by
  have hlt := w.isLt
  simp only [opField, selField, rsvField, BitVec.extractLsb'_toNat, Nat.shiftRight_eq_div_pow]
  omega

theorem encode_toNat (i : Instr) :
    (encode i).toNat = (opcode i).toNat + 256 * (selector i).toNat := by
  simp [word_toNat_eq_fields (encode i)]

/-- The opcodes of R62 other than CONST's. -/
def NamedOpcode (n : Nat) : Prop :=
  (0x01 ≤ n ∧ n ≤ 0x04) ∨ (0x10 ≤ n ∧ n ≤ 0x18) ∨ (0x20 ≤ n ∧ n ≤ 0x23) ∨ (0x30 ≤ n ∧ n ≤ 0x34)

theorem legalWord_iff (w : Word) :
    LegalWord w ↔ NamedOpcode w.toNat ∨ ∃ sel, sel ≤ 8 ∧ w.toNat = 0x40 + 256 * sel := by
  simp only [LegalWord, NamedOpcode, or_assoc]

theorem instrOfOpcode_isSome : ∀ op : BitVec 8,
    NamedOpcode op.toNat → (instrOfOpcode op 0).isSome = true := by
  unfold NamedOpcode
  decide

/-- The opcode map names a command, not CONST, at each of these opcodes. -/
theorem exists_opcode_of_named {n : Nat} (h : NamedOpcode n) :
    ∃ i : Instr, (opcode i).toNat = n ∧ opcode i ≠ 0x40 := by
  have hlt : n < 0x40 := by unfold NamedOpcode at h; omega
  have hn : (BitVec.ofNat 8 n).toNat = n := Nat.mod_eq_of_lt (by omega)
  obtain ⟨i, hi⟩ := Option.isSome_iff_exists.1 (instrOfOpcode_isSome (BitVec.ofNat 8 n) (by rwa [hn]))
  have hop : (opcode i).toNat = n := by rw [(opcode_of_instrOfOpcode hi).1, hn]
  refine ⟨i, hop, fun h40 => ?_⟩
  have hconst : n = 0x40 := by rw [← hop, h40]; rfl
  omega

theorem legalWord_encode {i : Instr} (h : i.wellFormed = true) : LegalWord (encode i) := by
  rw [legalWord_iff, encode_toNat]
  cases i with
  | const sel => exact .inr ⟨sel.toNat, of_decide_eq_true h, rfl⟩
  | muldiv | muldivfp | mul | div | add | sub | abs | avg | floor | ceil | frac | fromint | toint
  | sqrt | gm | powu | pow | log2 | exp2 | exp | ln | log10 =>
    exact .inl (by simp [NamedOpcode, opcode, selector])

theorem exists_encode_of_legalWord {w : Word} (h : LegalWord w) :
    ∃ i : Instr, i.wellFormed = true ∧ encode i = w := by
  rcases (legalWord_iff w).1 h with hnamed | ⟨sel, hsel, hw⟩
  · obtain ⟨i, hop, hne⟩ := exists_opcode_of_named hnamed
    refine ⟨i, (wellFormed_iff i).2 fun h40 => absurd h40 hne, BitVec.eq_of_toNat_eq ?_⟩
    simp [encode_toNat, selector_eq_zero hne, hop]
  · have hnat : (BitVec.ofNat 8 sel).toNat = sel := Nat.mod_eq_of_lt (by omega)
    refine ⟨.const (BitVec.ofNat 8 sel), decide_eq_true (by rwa [hnat]), BitVec.eq_of_toNat_eq ?_⟩
    rw [encode_toNat, selector, hnat, hw]
    rfl

end Sys2Proof
end

section
/-! The rules of the host statements (30_encoding R68 to R70): a value operand's pattern, and what a
step on each statement leaves. -/
namespace Sys2Proof.Machine

/-! ### Value operands (R68) -/

theorem literal_eq_some {m n : Int} {d : Nat} (hd : d ≤ 18) (h : n * 10 ^ d = m * 10 ^ 18) :
    literal m d = some n := by
  have hsplit : (10 : Int) ^ 18 = 10 ^ (18 - d) * 10 ^ d := by rw [← pow_add, Nat.sub_add_cancel hd]
  rw [hsplit, ← mul_assoc] at h
  rw [literal, if_pos hd, mul_right_cancel₀ (by positivity) h]

theorem literal_eq_none (m : Int) {d : Nat} (hd : 18 < d) : literal m d = none := by
  rw [literal, if_neg (by omega)]

theorem encDefined_iff (n : Int) : encDefined n = true ↔ -(2 ^ 255) ≤ n ∧ n ≤ 2 ^ 256 - 1 := by
  simp [encDefined, minValue_eq, maxUnsigned_eq]

theorem encodeHost_ok {n : Int} (h : -(2 ^ 255) ≤ n ∧ n ≤ 2 ^ 256 - 1) :
    encodeHost n = .ok (enc n) := by
  rw [encodeHost, if_pos ((encDefined_iff n).2 h)]

theorem encodeHost_undefined {n : Int} (h : ¬ (-(2 ^ 255) ≤ n ∧ n ≤ 2 ^ 256 - 1)) :
    encodeHost n = .error .encUndefined := by
  rw [encodeHost, if_neg (mt (encDefined_iff n).1 h)]

theorem hostValue_fx (s : State) {m n : Int} {d : Nat} (hd : d ≤ 18)
    (h : n * 10 ^ d = m * 10 ^ 18) : hostValue s (.fx m d) = encodeHost n := by
  rw [hostValue, literal_eq_some hd h]

theorem hostValue_fx_digits (s : State) (m : Int) {d : Nat} (hd : 18 < d) :
    hostValue s (.fx m d) = .error .fxDigits := by
  rw [hostValue, literal_eq_none m hd]

/-! ### Statements (R68, R70) -/

theorem execStmt_memWrite_fault (P : Params) (addr : BitVec 3) {v : HostValue} {f : Fault}
    {s : State} (hv : hostValue s v = .error f) :
    execStmt P (.memWrite addr accessBytes v) s = .fault f := by
  rw [execStmt, if_pos rfl, hv]

/-- A write to an index other than CMD. -/
theorem execStmt_memWrite_other (P : Params) {addr : BitVec 3} (ha : addr ≠ idxCmd) {v : HostValue}
    {w : Word} {s : State} (hv : hostValue s v = .ok w) :
    execStmt P (.memWrite addr accessBytes v) s = .next (advance (writeIndex addr w s)) := by
  rw [execStmt_memWrite P addr hv, portWrite_other P ha]
  rfl

/-- A write to CMD of a word that decodes runs that command (R64). -/
theorem execStmt_memWrite_command {P : Params} {v : HostValue} {w : Word} {i : Instr} {s t : State}
    (hv : hostValue s v = .ok w) (hw : decode w = .ok i) (h : execAt P i s = .next t) :
    execStmt P (.memWrite idxCmd accessBytes v) s = .next { t with pc := s.pc + 1 } := by
  have hpc : t.pc = s.pc := by
    rw [execAt_next, Host.Outcome.next.injEq] at h
    simp [← h]
  rw [execStmt_memWrite P idxCmd hv, portWrite_cmd, runWord, hw, ← hpc]
  exact congrArg advanceAfter h

theorem execStmt_li (P : Params) (dst : Fin 8) {v : HostValue} {w : Word} {s : State}
    (hv : hostValue s v = .ok w) : execStmt P (.li dst v) s = .next (advance (setH dst w s)) := by
  rw [execStmt, hv]

theorem execStmt_li_fault (P : Params) (dst : Fin 8) {v : HostValue} {f : Fault} {s : State}
    (hv : hostValue s v = .error f) : execStmt P (.li dst v) s = .fault f := by
  rw [execStmt, hv]

/-- A conditional branch moves the pc alone, to its label or past the statement. -/
theorem ite_jump_advance (c : Prop) [Decidable c] (target : Nat) (s : State) :
    (if c then jump target s else advance s) =
      { s with pc := if c then target else s.pc + 1 } := by
  split <;> rfl

theorem execStmt_bnz (P : Params) (src : Fin 8) (target : Nat) (s : State) :
    execStmt P (.bnz src target) s =
      .next { s with pc := if uint s.h[src] ≠ 0 then target else s.pc + 1 } := by
  rw [execStmt, ite_jump_advance]

theorem execStmt_beqz (P : Params) (src : Fin 8) (target : Nat) (s : State) :
    execStmt P (.beqz src target) s =
      .next { s with pc := if uint s.h[src] = 0 then target else s.pc + 1 } := by
  rw [execStmt, ite_jump_advance]

/-! ### Steps with no reset to come -/

theorem step_of_stmt {s : State} {st : HostStmt} {r : StepResult} (hresets : s.resets = [])
    (hst : s.program[s.pc]? = some st) (h : execStmt defaultParams st s = r) : step s = r := by
  rw [step_of_no_resets hresets, hostStep_of_stmt _ hst, h]

/-- The first step of a run of a machine. -/
theorem run_succ {M : Host.Core} {s t : M.State} (h : M.step s = .next t) (k : Nat) :
    M.run (k + 1) s = M.run k t := by
  rw [Host.Core.run, h]

/-! ### The test of BERR (R69) -/

/-- The two low bits of STATUS are LAST_ERR (10_state R26). -/
theorem uint_and_three (v : Word) : uint (v &&& 3) = (lastErr v).toNat := by
  have hand : (v &&& 3).toNat = v.toNat % 4 := Nat.and_two_pow_sub_one_eq_mod v.toNat 2
  rw [uint, hand, lastErr, BitVec.extractLsb'_toNat, Nat.shiftRight_zero]

/-- The literals stand in the form `simp` gives them, so that it can use the lemma. -/
theorem uint_and_three_eq_zero_iff (v : Word) : uint (v &&& 3#256) = 0 ↔ lastErr v = 0#2 := by
  rw [BitVec.toNat_eq, ← uint_and_three]
  rfl

end Sys2Proof.Machine
end

section
/-! The settled statements of 30_encoding. -/
namespace Sys2Proof.Encoding

open Sys2Proof.Machine Sys2Proof.Claims

/-- Settles O4: the round trip of the command word. -/
theorem decodeOfEncode : Obligations.DecodeOfEncode :=
  fun _ hwf => decode_encode hwf

/-- Settles O5: the decoder's checks leave the fields of an encoding, and a word is its fields. -/
theorem encodeOfDecode : Obligations.EncodeOfDecode :=
  fun _ _ h => decode_eq_ok_iff.1 h

/-- Settles O6: the words that decode are the encodings of well-formed commands, and their numbers
are the listed ones. -/
theorem legalWordsAreTheTable : Obligations.LegalWordsAreTheTable := by
  intro w
  simp only [decode_eq_ok_iff]
  constructor
  · rintro ⟨i, hwf, rfl⟩
    exact legalWord_encode hwf
  · exact exists_encode_of_legalWord

/-- Settles O53: the three statements run in turn; the second leaves LAST_ERR's bits in h7, which the
branch tests. -/
theorem berrBranchesOnError : Obligations.BerrBranchesOnError := by
  intro s name target hresets hprog
  have hread : step s = .next (advance (setH 7 s.status s)) :=
    step_of_stmt hresets (hprog 0 (by decide)) (execStmt_memRead defaultParams 7 idxStatus s)
  have hmask : step (advance (setH 7 s.status s)) =
      .next { s with h := s.h.set 7 (s.status &&& 3), pc := s.pc + 2 } := by
    refine step_of_stmt hresets (hprog 1 (by decide)) ?_
    simp [execStmt, setH, advance]
  have hbranch : step { s with h := s.h.set 7 (s.status &&& 3), pc := s.pc + 2 } =
      .next { s with
        h := s.h.set 7 (s.status &&& 3), pc := if lastErr s.status = 0 then s.pc + 3 else target } := by
    refine step_of_stmt hresets (hprog 2 (by decide)) ?_
    rw [execStmt_bnz]
    simp [uint_and_three_eq_zero_iff]
  exact (run_succ hread 2).trans ((run_succ hmask 1).trans (run_succ hbranch 0))

/-- Settles O55: the write of the sticky mask to STATUS is `clearSticky`, known bit by bit. -/
theorem clrstkClearsTheStickyBits : Obligations.ClrstkClearsTheStickyBits := by
  intro s hresets hstmt
  have hbit (k : Nat) : (clearSticky stickyMask s.status).getLsbD k =
      (s.status.getLsbD k && !decide (8 ≤ k ∧ k ≤ 10)) := by
    rw [getLsbD_clearSticky, getLsbD_stickyMask, Bool.and_self]
  refine ⟨clearSticky stickyMask s.status, ?_, ?_, ?_, ?_, fun k hk => ?_⟩
  · exact step_of_stmt hresets hstmt
      (execStmt_memWrite_other defaultParams (addr := idxStatus) (by decide) rfl)
  · rw [stkDomain, hbit]
    simp
  · rw [stkOverflow, hbit]
    simp
  · rw [stkIllegal, hbit]
    simp
  · rw [hbit, decide_eq_false (by omega), Bool.not_false, Bool.and_true]

/-- Settles O3: the decoder evaluated at the ten words. -/
theorem specWordsDecode : Obligations.SpecWordsDecode :=
  ⟨rfl, rfl, rfl, rfl, rfl, rfl, rfl, rfl, rfl, rfl⟩

/-- Settles O50: with no reset due the step is the CMD write, and a reset due later is a field that
the literal of the write does not read. -/
theorem stepRunsTheDecodedCommand : Obligations.StepRunsTheDecodedCommand := by
  refine ⟨fun s t v w i hstmt hv hw => ⟨fun hresets h => ?_, fun n later hresets h => ?_,
    fun P hresets h => ?_⟩, exec_eq_execAt, rfl⟩
  · exact step_of_stmt hresets hstmt (execStmt_memWrite_command hv hw (exec_eq_execAt i s ▸ h))
  · rw [step, stepAt, hresets]
    refine (hostStep_of_stmt (s := setResets (n :: later) s) defaultParams hstmt).trans ?_
    exact execStmt_memWrite_command ((hostValue_setResets _ s v).trans hv) hw
      (exec_eq_execAt i _ ▸ h)
  · rw [stepAt_of_no_resets P hresets, hostStep_of_stmt P hstmt]
    exact execStmt_memWrite_command hv hw h

/-- Settles O51: the literals by the domain of `enc`, and each statement by its rule. -/
theorem hostOnlyStatements : Obligations.HostOnlyStatements := by
  refine ⟨fun s m n d hd h => ?_, fun s m d => hostValue_fx_digits s m,
    fun s n => ⟨encodeHost_ok, encodeHost_undefined⟩, fun _ _ => rfl, fun _ _ => rfl,
    fun s hresets => ⟨?_, ?_, ?_, ?_, ?_, ?_, ?_, ?_⟩⟩
  · rw [hostValue_fx s hd h]
    exact ⟨encodeHost_ok, encodeHost_undefined⟩
  · exact fun dst v w hstmt hv => step_of_stmt hresets hstmt (execStmt_li _ dst hv)
  · exact fun dst v f hstmt hv => step_of_stmt hresets hstmt (execStmt_li_fault _ dst hv)
  · exact fun addr v f hstmt hv => step_of_stmt hresets hstmt (execStmt_memWrite_fault _ addr hv)
  · exact fun dst src k hstmt => step_of_stmt hresets hstmt rfl
  · exact fun dst src k hstmt => step_of_stmt hresets hstmt rfl
  · exact fun src target hstmt => step_of_stmt hresets hstmt (execStmt_bnz _ src target s)
  · exact fun src target hstmt => step_of_stmt hresets hstmt (execStmt_beqz _ src target s)
  · exact fun target hstmt => step_of_stmt hresets hstmt rfl

/-- Settles O52: HALT and the end of the list are host steps that answer the state they were given. -/
theorem endedProgramIsIdle : Obligations.EndedProgramIsIdle := by
  rintro s hresets (hhalt | hend)
  · exact step_of_stmt hresets hhalt rfl
  · rw [step_of_no_resets hresets, hostStep, hend]

/-- Settles O54: RES goes to h7 and h7 to the register, which is an operand register and so stores
it. -/
theorem movFeedsRes : Obligations.MovFeedsRes := by
  intro s r hr hresets hprog
  have hread : step s = .next (advance (setH 7 s.res s)) :=
    step_of_stmt hresets (hprog 0 (by decide)) (execStmt_memRead defaultParams 7 idxRes s)
  have hcmd : regIndex r ≠ idxCmd := by rcases hr with rfl | rfl | rfl <;> decide
  have hwrite : step (advance (setH 7 s.res s)) =
      .next (advance (writeIndex (regIndex r) s.res (advance (setH 7 s.res s)))) :=
    step_of_stmt hresets (hprog 1 (by decide))
      (execStmt_memWrite_other defaultParams hcmd (by simp [hostValue]))
  refine (run_succ hread 1).trans ((run_succ hwrite 0).trans ?_)
  rcases hr with rfl | rfl | rfl <;> rfl

end Sys2Proof.Encoding
end

section
/-! What a command leaves when its rule evaluates to a value or to an error (60_exceptions R205, R206),
in the vocabulary of the statements. -/
namespace Sys2Proof.Machine

open Sys2Proof.Claims

theorem frameKept_finish (r : Except CmdError Int) (op : BitVec 8) (s : State) :
    FrameKept s (finish r (noteOp op s)) := by
  constructor <;> simp

theorem committed_ok (op : BitVec 8) (n : Int) (s : State) :
    Committed op s (ok n (noteOp op s)) := by
  refine ⟨lastErr_statusOk op _, resValid_statusOk _, lastOp_statusOk op _, fun k hk hout => ?_,
    frameKept_finish (.ok n) op s⟩
  rw [ok_status, noteOp_status, getLsbD_statusOk, if_neg (by omega), if_neg (by omega),
    if_neg (by omega)]

theorem rejected_raiseErr (op : BitVec 8) (e : CmdError) (s : State) :
    Rejected op e s (raiseErr e (noteOp op s)) := by
  refine ⟨rfl, lastErr_statusRaise e _, ?_, lastOp_statusRaise e op _, fun k hk hsticky hout => ?_,
    frameKept_finish (.error e) op s⟩
  · rw [raiseErr_status, noteOp_status, getLsbD_statusRaise, if_neg (by omega), ← stickyBit,
      if_pos rfl]
  · rw [← stickyBit] at hsticky
    rw [raiseErr_status, noteOp_status, getLsbD_statusRaise, if_neg (by omega), if_neg hsticky,
      if_neg (by omega)]

section
variable {i : Instr} {s : State}

theorem succeeds_of_evaluate {n : Int} (h : evaluate defaultParams i s.opa s.opb s.opc = .ok n)
    (hn : n.natAbs < 2 ^ 255) : Succeeds i s n := by
  refine ⟨ok n (noteOp (opcode i) s), by rw [exec_next, h, finish_ok], ?_, committed_ok _ n s⟩
  rw [ok_res, sint_enc (by omega) (by omega)]

theorem succeedsUnsigned_of_evaluate {n : Nat}
    (h : evaluate defaultParams i s.opa s.opb s.opc = .ok n) (hn : n < 2 ^ 256) :
    SucceedsUnsigned i s n :=
  ⟨ok n (noteOp (opcode i) s), by rw [exec_next, h, finish_ok], uint_enc hn, committed_ok _ n s⟩

theorem raises_of_evaluate {e : CmdError}
    (h : evaluate defaultParams i s.opa s.opb s.opc = .error e) : Raises i s e :=
  ⟨raiseErr e (noteOp (opcode i) s), by rw [exec_next, h, finish_error], rejected_raiseErr _ e s⟩

/-- A command that succeeds evaluated to a value, and RES is that value's pattern: LAST_ERR tells a
success from an error. -/
theorem evaluate_of_succeeds {n : Int} (h : Succeeds i s n) :
    ∃ m, evaluate defaultParams i s.opa s.opb s.opc = .ok m ∧ sint (enc m) = n := by
  obtain ⟨t, hexec, hres, hcommitted⟩ := h
  rw [exec_next, Host.Outcome.next.injEq] at hexec
  subst hexec
  cases hr : evaluate defaultParams i s.opa s.opb s.opc with
  | ok m =>
    rw [hr] at hres
    exact ⟨m, rfl, hres⟩
  | error e =>
    have herr := hcommitted.err
    rw [hr, lastErr_finish] at herr
    exact absurd herr (errCode_ne_zero e)

/-- A magnitude that must fit in 256 bits: it is in RES, or the command overflows. -/
theorem unsigned_outcome {q : Nat}
    (h : evaluate defaultParams i s.opa s.opb s.opc = ofMagnitude (fit q)) :
    (q ≤ 2 ^ 256 - 1 → SucceedsUnsigned i s q) ∧ (2 ^ 256 - 1 < q → Raises i s .overflow) := by
  constructor
  · intro hq
    rw [fit_ok (by omega)] at h
    exact succeedsUnsigned_of_evaluate h (by omega)
  · intro hq
    rw [fit_overflow (by omega)] at h
    exact raises_of_evaluate h

/-- A signed value whose magnitude `q` must not exceed MAX_VALUE: it is in RES, or the command
overflows. -/
theorem signed_outcome {n : Int} {q : Nat} (hn : n.natAbs = q)
    (h : evaluate defaultParams i s.opa s.opb s.opc =
      if q < 2 ^ 255 then .ok n else .error .overflow) :
    (q ≤ 2 ^ 255 - 1 → Succeeds i s n) ∧ (2 ^ 255 - 1 < q → Raises i s .overflow) := by
  constructor
  · intro hq
    rw [if_pos (by omega)] at h
    exact succeeds_of_evaluate h (by omega)
  · intro hq
    rw [if_neg (by omega)] at h
    exact raises_of_evaluate h

end

end Sys2Proof.Machine
end

section
/-! The rounded product and the truncated quotient (40_muldiv R82 to R86): each as the one number of
its bracket, and how far each is from exact. -/
namespace Sys2Proof.Machine

/-- The quotient by SCALE rounded half up is the only number of its bracket (R82). -/
theorem half_up_eq_of_bracket {p q : Nat} (h1 : 2 * (q * 10 ^ 18) ≤ 2 * p + 10 ^ 18)
    (h2 : 2 * p + 10 ^ 18 < 2 * ((q + 1) * 10 ^ 18)) : (2 * p + scale) / (2 * scale) = q := by
  rw [scale_eq]
  omega

theorem applySign_signs (q : Nat) (x y : Int) :
    applySign q (isNeg x != isNeg y) = if (x < 0 ↔ y < 0) then (q : Int) else -q := by
  by_cases hx : x < 0 <;> by_cases hy : y < 0 <;> simp [applySign, isNeg, hx, hy]

/-- An integer product is the product of the magnitudes with the sign put back (R80). -/
theorem applySign_natAbs_mul_natAbs (x y : Int) :
    applySign (x.natAbs * y.natAbs) (isNeg x != isNeg y) = x * y := by
  rw [applySign_signs, Nat.cast_mul]
  by_cases hx : x < 0 <;> by_cases hy : y < 0 <;>
    simp [hx, hy, abs_of_neg, abs_of_nonneg, not_lt.1]

theorem half_up_bracket (p : Nat) :
    2 * ((2 * p + scale) / (2 * scale) * scale) ≤ 2 * p + scale ∧
      2 * p < 2 * ((2 * p + scale) / (2 * scale) * scale) + scale := by
  rw [scale_eq]
  omega

/-- MUL is within half a unit of the exact product (R85). -/
theorem two_mul_natAbs_mulS_sub_le {x y p : Int} (h : mulS x y = .ok p) :
    2 * (p * scale - x * y).natAbs ≤ scale := by
  obtain ⟨hle, hlt⟩ := half_up_bracket (x.natAbs * y.natAbs)
  rw [eq_of_mulS_ok h, ← applySign_natAbs_mul_natAbs x y]
  generalize (2 * (x.natAbs * y.natAbs) + scale) / (2 * scale) = r at *
  generalize x.natAbs * y.natAbs = w at *
  rw [scale_eq] at *
  simp only [applySign]
  split <;> omega

/-- A product of magnitude at most `n` times SCALE rounds to at most `n`. -/
theorem half_up_le {w n : Nat} (h : w ≤ n * scale) : (2 * w + scale) / (2 * scale) ≤ n := by
  rw [scale_eq] at *
  omega

theorem natAbs_tdiv_scale (x y : Int) :
    ((x * scale).tdiv y).natAbs = x.natAbs * scale / y.natAbs := by
  rw [← applySign_div_eq_tdiv, natAbs_applySign]

/-- DIV is the truncated quotient, where its magnitude is at most MAX_VALUE (R85). -/
theorem divS_eq_tdiv {x y : Int} (hx : x ≠ -(2 ^ 255)) (hy : y ≠ -(2 ^ 255)) (h0 : y ≠ 0) :
    divS x y = if ((x * scale).tdiv y).natAbs < 2 ^ 255 then .ok ((x * scale).tdiv y)
      else .error .overflow := by
  rw [divS_eq hx hy h0, applySign_div_eq_tdiv, natAbs_tdiv_scale]

/-- Where DIV answers, its operands are in its domain and the truncated quotient is in range (R84). -/
theorem divS_ok {x y q : Int} (h : divS x y = .ok q) :
    x ≠ -(2 ^ 255) ∧ y ≠ -(2 ^ 255) ∧ y ≠ 0 ∧ q.natAbs < 2 ^ 255 ∧ q = (x * scale).tdiv y := by
  have hdom : ¬ (x = -(2 ^ 255) ∨ y = -(2 ^ 255)) := fun hd => by
    rw [divS_domain hd] at h
    cases h
  obtain ⟨hx, hy⟩ := not_or.1 hdom
  have h0 : y ≠ 0 := by
    rintro rfl
    rw [divS_zero] at h
    cases h
  rw [divS_eq_tdiv hx hy h0] at h
  split at h
  case isTrue hlt =>
    obtain rfl := Except.ok.inj h
    exact ⟨hx, hy, h0, hlt, rfl⟩
  case isFalse => cases h

/-- The truncated quotient leaves less than the divisor. -/
theorem natAbs_sub_tdiv_mul_lt (a : Int) {y : Int} (h0 : y ≠ 0) :
    (a - a.tdiv y * y).natAbs < y.natAbs := by
  have hrem : a - a.tdiv y * y = a.tmod y := by rw [Int.tmod_def, mul_comm]
  rw [hrem, Int.natAbs_tmod]
  exact Nat.mod_lt _ (Int.natAbs_pos.2 h0)

/-- The product of a quotient by its divisor is in range: its magnitude is at most the dividend's. -/
theorem exists_mulS_of_divS {x y q : Int} (hx : x.natAbs < 2 ^ 255) (h : divS x y = .ok q) :
    ∃ p, mulS q y = .ok p ∧ p.natAbs < 2 ^ 255 := by
  obtain ⟨-, hy, -, hlt, rfl⟩ := divS_ok h
  have hprod : ((x * scale).tdiv y).natAbs * y.natAbs ≤ x.natAbs * scale := by
    rw [natAbs_tdiv_scale]
    exact Nat.div_mul_le_self _ _
  have hle := lt_of_le_of_lt (half_up_le hprod) hx
  refine ⟨_, by rw [mulS_eq (by omega) hy, if_pos hle], ?_⟩
  rwa [natAbs_applySign]

/-- Dividing loses less than the divisor and multiplying half a unit: with a divisor of at most 1.0
that is less than two units (R86). -/
theorem natAbs_sub_mulS_divS_le {x y q p : Int} (hy : y.natAbs ≤ scale) (hq : divS x y = .ok q)
    (hp : mulS q y = .ok p) : (x - p).natAbs ≤ 1 := by
  obtain ⟨-, -, h0, -, hquot⟩ := divS_ok hq
  have hdiv : (x * scale - q * y).natAbs < y.natAbs := hquot ▸ natAbs_sub_tdiv_mul_lt _ h0
  have hmul := two_mul_natAbs_mulS_sub_le hp
  rw [scale_eq] at *
  push_cast at *
  omega

end Sys2Proof.Machine
end

section
/-! The settled statements of 40_muldiv. -/
namespace Sys2Proof.MulDiv

open Sys2Proof.Machine Sys2Proof.Claims

/-- Settles O8: the bracket names the floor, which the command answers where it fits. -/
theorem muldivIsExactFloor : Obligations.MuldivIsExactFloor := by
  refine ⟨rfl, fun s => ⟨fun hc => raises_of_evaluate ?_, fun q hc hlo hhi => unsigned_outcome ?_⟩⟩
  · rw [evaluate, hc, mulDivU_zero]
    rfl
  · rw [evaluate, mulDivU_eq hc, Nat.div_eq_of_lt_le hlo hhi]

/-- Settles O9: the bracket names the rounded quotient, which the command answers where it fits. -/
theorem muldivfpRoundsHalfUp : Obligations.MuldivfpRoundsHalfUp := by
  refine ⟨rfl, fun s q hlo hhi => unsigned_outcome ?_⟩
  rw [evaluate, mulDivFpU_eq, half_up_eq_of_bracket hlo hhi]

/-- Settles O10: the bracket names the rounded magnitude, and the sign is put back by `applySign`. -/
theorem mulRoundsHalfAwayFromZero : Obligations.MulRoundsHalfAwayFromZero := by
  refine ⟨rfl, fun s => ⟨fun hmin => raises_of_evaluate (mulS_domain hmin),
    fun q hx hy hlo hhi => ?_⟩⟩
  rw [← applySign_signs]
  refine signed_outcome (natAbs_applySign q _) ?_
  rw [evaluate, mulS_eq hx hy, half_up_eq_of_bracket hlo hhi]

/-- Settles O11: the quotient of the magnitudes with its sign put back is the truncated one. -/
theorem divTruncatesTowardZero : Obligations.DivTruncatesTowardZero := by
  refine ⟨rfl, fun s => ⟨fun hmin => raises_of_evaluate (divS_domain hmin),
    fun h0 => raises_of_evaluate ?_, fun hx hy h0 => signed_outcome rfl (divS_eq_tdiv hx hy h0)⟩⟩
  rw [evaluate, h0, divS_zero]

/-- Settles O12: the quotient that DIV left is in range, so OPA holds it exactly; its product by the
divisor is no more than the dividend in magnitude, so MUL succeeds, and the two roundings lose less
than two units. -/
theorem mulUndoesDivBelowOne : Obligations.MulUndoesDivBelowOne := by
  intro s q hy hdiv
  obtain ⟨m, hm, hq⟩ := evaluate_of_succeeds hdiv
  obtain ⟨hx, -, -, hlt, -⟩ := divS_ok hm
  have henc : sint (enc m) = m := sint_enc (by omega) (by omega)
  obtain rfl : m = q := henc.symm.trans hq
  obtain ⟨p, hp, hplt⟩ := exists_mulS_of_divS (natAbs_sint_lt hx) hm
  refine ⟨p, succeeds_of_evaluate ?_ hplt, natAbs_sub_mulS_divS_le hy hm hp⟩
  rw [evaluate, henc, hp]

end Sys2Proof.MulDiv
end

section
/-! The signed range as the outcome of a command (00_scope R16), and what the elementary operations
answer (41_elementary R100 to R109). -/
namespace Sys2Proof.Machine

open Sys2Proof.Claims

/-- SCALE as the power the statements write (00_scope R6). -/
theorem scale_int_eq_pow : ((scale : Nat) : Int) = 10 ^ 18 := by
  rw [scale_eq, Nat.cast_pow, Nat.cast_ofNat]

/-! ### The signed range -/

theorem representable_sint (v : Word) : Representable (sint v) :=
  ⟨minValue_le_sint v, Int.le_sub_one_of_lt (sint_lt v)⟩

theorem sint_enc_of_representable {n : Int} (h : Representable n) : sint (enc n) = n :=
  sint_enc h.1 (Int.lt_of_le_sub_one h.2)

theorem signedRange_of_representable {n : Int} (h : Representable n) : signedRange n = .ok n :=
  signedRange_ok h.1 (Int.lt_of_le_sub_one h.2)

theorem signedRange_of_not_representable {n : Int} (h : ¬ Representable n) :
    signedRange n = .error .overflow :=
  signedRange_overflow (by unfold Representable at h; omega)

theorem signedRange_eq_ok_iff {n m : Int} : signedRange n = .ok m ↔ Representable n ∧ n = m := by
  by_cases h : Representable n
  · simp [signedRange_of_representable h, h]
  · simp [signedRange_of_not_representable h, h]

section
variable {i : Instr} {s : State} {n : Int}

/-- Unlike `succeeds_of_evaluate`, MIN_VALUE included. -/
theorem succeeds_of_evaluate_representable
    (h : evaluate defaultParams i s.opa s.opb s.opc = .ok n) (hn : Representable n) :
    Succeeds i s n :=
  ⟨ok n (noteOp (opcode i) s), by rw [exec_next, h, finish_ok], sint_enc_of_representable hn,
    committed_ok _ n s⟩

/-- A signed value that must be representable: it is in RES, or the command overflows (R16). -/
theorem signedRange_outcome (h : evaluate defaultParams i s.opa s.opb s.opc = signedRange n) :
    (Representable n → Succeeds i s n) ∧ (¬ Representable n → Raises i s .overflow) :=
  ⟨fun hn => succeeds_of_evaluate_representable (h.trans (signedRange_of_representable hn)) hn,
    fun hn => raises_of_evaluate (h.trans (signedRange_of_not_representable hn))⟩

end

/-! ### The elementary operations -/

/-- The mean rounded down is the only number of its bracket (R103). -/
theorem avgS_eq_of_bracket {x y z : Int} (h1 : 2 * z ≤ x + y) (h2 : x + y < 2 * z + 2) :
    avgS x y = z := by
  rw [avgS_eq]
  omega

/-- A mean rounded down lies between the two values, so it is in range where they are (R103). -/
theorem representable_mean {x y z : Int} (hx : Representable x) (hy : Representable y)
    (h1 : 2 * z ≤ x + y) (h2 : x + y < 2 * z + 2) : Representable z := by
  unfold Representable at *
  omega

theorem floorS_overflow {x : Int} (h : x < minWhole) : floorS x = .error .overflow := if_pos h

theorem ceilS_overflow {x : Int} (h : maxWhole < x) : ceilS x = .error .overflow := if_pos h

theorem neg_two_pow_lt_minWhole : -(2 ^ 255) < minWhole := by decide

theorem maxWhole_lt_two_pow : maxWhole < 2 ^ 255 := by decide

/-- Truncating a whole value gives its integer back (R109). -/
theorem toIntS_mul_scale (k : Int) : toIntS (k * scale) = k :=
  Int.mul_tdiv_cancel k (Int.natCast_ne_zero.2 scale_pos.ne')

end Sys2Proof.Machine
end

section
/-! The settled statements of 41_elementary. -/
namespace Sys2Proof.Elementary

open Sys2Proof.Machine Sys2Proof.Claims

/-- Settles O13: ADD evaluates to the range check of the sum. -/
theorem addIsExactOrOverflows : Obligations.AddIsExactOrOverflows :=
  ⟨rfl, fun _ => signedRange_outcome rfl⟩

/-- Settles O14: SUB evaluates to the range check of the difference. -/
theorem subIsExactOrOverflows : Obligations.SubIsExactOrOverflows :=
  ⟨rfl, fun _ => signedRange_outcome rfl⟩

/-- Settles O15: every magnitude but that of MIN_VALUE is in range. -/
theorem absIsMagnitude : Obligations.AbsIsMagnitude := by
  refine ⟨rfl, fun s => ⟨fun hx => ?_, fun hx => raises_of_evaluate ?_⟩⟩
  · rw [Int.abs_eq_natAbs]
    refine succeeds_of_evaluate ?_ (natAbs_sint_lt hx)
    rw [evaluate, absS_ok hx]
    rfl
  · rw [evaluate, hx, absS_domain]
    rfl

/-- Settles O16: the bracket names the mean rounded down, which lies between the operands. -/
theorem avgRoundsDown : Obligations.AvgRoundsDown := by
  refine ⟨rfl, fun s z h1 h2 => succeeds_of_evaluate_representable ?_
    (representable_mean (representable_sint s.opa) (representable_sint s.opb) h1 h2)⟩
  rw [evaluate, avgS_eq_of_bracket h1 h2]

/-- Settles O17: the bracket names the whole value, which is at least MIN_WHOLE where x is. -/
theorem floorIsGreatestWholeBelow : Obligations.FloorIsGreatestWholeBelow := by
  refine ⟨rfl, fun s => ⟨fun hlt => raises_of_evaluate (floorS_overflow hlt),
    fun z hge hwhole hle hlt => ?_⟩⟩
  rw [← scale_int_eq_pow] at hwhole hlt
  have hz := floorS_ge hge hwhole hlt
  have hmin := neg_two_pow_lt_minWhole
  exact succeeds_of_evaluate_representable (floorS_unique hge hwhole hle hlt)
    ⟨by omega, hle.trans (representable_sint s.opa).2⟩

/-- Settles O18: the bracket names the whole value, which is at most MAX_WHOLE where x is. -/
theorem ceilIsLeastWholeAbove : Obligations.CeilIsLeastWholeAbove := by
  refine ⟨rfl, fun s => ⟨fun hlt => raises_of_evaluate (ceilS_overflow hlt),
    fun z hle hwhole hge hlt => ?_⟩⟩
  rw [← scale_int_eq_pow] at hwhole hlt
  have hz := ceilS_le hle hwhole hlt
  have hmax := maxWhole_lt_two_pow
  exact succeeds_of_evaluate_representable (ceilS_unique hle hwhole hge hlt)
    ⟨(representable_sint s.opa).1.trans hge, by omega⟩

/-- Settles O19: the description names the remainder, which is smaller than SCALE. -/
theorem fracKeepsTheSign : Obligations.FracKeepsTheSign := by
  refine ⟨rfl, fun s r hdvd hlt hpos hneg => succeeds_of_evaluate ?_ (by omega)⟩
  rw [← scale_int_eq_pow] at hdvd
  rw [← scale_eq] at hlt
  rw [evaluate, fracS, trem_unique hdvd hlt hpos hneg]

/-- Settles O20: FROMINT evaluates to the range check of the product by SCALE. -/
theorem fromintScalesOrOverflows : Obligations.FromintScalesOrOverflows :=
  ⟨rfl, fun _ => scale_int_eq_pow ▸ signedRange_outcome rfl⟩

/-- Settles O21: the bracket names the truncated quotient, which is no greater than x in
magnitude. -/
theorem tointTruncatesTowardZero : Obligations.TointTruncatesTowardZero := by
  refine ⟨rfl, fun s k hlo hhi hpos hneg => succeeds_of_evaluate_representable ?_ ?_⟩
  · rw [← scale_eq] at hlo hhi
    rw [evaluate, toIntS, tdiv_unique hlo hhi hpos hneg]
  · obtain ⟨hmin, hmax⟩ := representable_sint s.opa
    exact ⟨by omega, by omega⟩

/-- Settles O22: the product that FROMINT left is in range, so OPA holds it exactly, and truncating
it gives the integer back. -/
theorem tointUndoesFromint : Obligations.TointUndoesFromint := by
  intro s v hfrom
  obtain ⟨m, hm, hv⟩ := evaluate_of_succeeds hfrom
  obtain ⟨hrange, rfl⟩ := signedRange_eq_ok_iff.1 hm
  obtain rfl : sint s.opa * scale = v := (sint_enc_of_representable hrange).symm.trans hv
  refine succeeds_of_evaluate_representable ?_ (representable_sint s.opa)
  rw [evaluate, sint_enc_of_representable hrange, toIntS_mul_scale]

end Sys2Proof.Elementary
end

section
/-! The power and root operations (42_power_root R130 to R135): the root as a command's result, the
loop of POWU as the relation of the statements and on whole bases, and the ranges of POW's steps. -/
namespace Sys2Proof.Machine

open Sys2Proof.Claims

/-! ### How a command ends -/

theorem ofMagnitude_eq_ok_iff {r : Except CmdError Nat} {m : Int} :
    ofMagnitude r = .ok m ↔ ∃ n : Nat, r = .ok n ∧ m = n := by
  cases r <;> simp [ofMagnitude, Except.map, eq_comm]

theorem sint_enc_of_natAbs_lt {n : Int} (h : n.natAbs < 2 ^ 255) : sint (enc n) = n :=
  sint_enc (by omega) (by omega)

section
variable {i : Instr} {s : State}

/-- A command ends as its rule evaluates, where the value is in the signed range. -/
theorem ends_of_evaluate {r : Except CmdError Int}
    (h : evaluate defaultParams i s.opa s.opb s.opc = r)
    (hrange : ∀ n, r = .ok n → n.natAbs < 2 ^ 255) : Ends i s r := by
  cases r with
  | ok n => exact succeeds_of_evaluate h (hrange n rfl)
  | error e => exact raises_of_evaluate h

/-- A root that a command evaluates to is the one number of its bracket, and in range where the
radicand is (R130). -/
theorem succeeds_of_evaluate_isqrt {p r : Int}
    (h : evaluate defaultParams i s.opa s.opb s.opc = ofMagnitude (.ok (isqrt p.natAbs)))
    (h0 : 0 ≤ r) (hlo : r * r ≤ p) (hhi : p < (r + 1) * (r + 1)) (hp : p < 2 ^ 255) :
    Succeeds i s r := by
  have hle : r ≤ p := by nlinarith
  exact succeeds_of_evaluate (h.trans (congrArg Except.ok (isqrt_natAbs_unique h0 hlo hhi)))
    (by omega)

end

/-! ### SQRT and its square (R131, R135) -/

/-- Where SQRT answers, its operand is some magnitude `m` and the answer is the root of `m * SCALE`,
which is in range (R131). -/
theorem root_of_sqrtS {x : Int} {n : Nat} (h : sqrtS x = .ok n) :
    ∃ m : Nat, x = m ∧ n * n ≤ m * scale ∧ m * scale < (n + 1) * (n + 1) ∧ n < 2 ^ 255 := by
  have h0 : 0 ≤ x := by
    by_contra hneg
    rw [sqrtS_domain (not_le.1 hneg)] at h
    cases h
  have hlt : x * scale < 2 ^ 255 := by
    by_contra hbig
    rw [sqrtS_overflow h0 (not_lt.1 hbig)] at h
    cases h
  obtain ⟨m, rfl⟩ := Int.eq_ofNat_of_zero_le h0
  rw [sqrtS_ok h0 hlt, ← Nat.cast_mul, Int.natAbs_natCast] at h
  obtain rfl := Except.ok.inj h
  have hle := isqrt_le_self (m * scale)
  exact ⟨m, rfl, isqrt_sq_le _, lt_isqrt_succ_sq _, by omega⟩

/-- The square of a root is at most the radicand, so MUL of the root by itself is in range; the
root loses less than `2r + 1` and the rounding of MUL half a unit (R135). -/
theorem exists_mulS_root {n r : Nat} (hn : n < 2 ^ 255) (hlo : r * r ≤ n * scale)
    (hhi : n * scale < (r + 1) * (r + 1)) :
    ∃ p : Nat, mulS r r = .ok p ∧ p ≤ n ∧ ((n : Int) - p) * scale < 2 * r + 1 + scale := by
  have hle := half_up_le hlo
  have hmul : mulS r r = .ok ((2 * (r * r) + scale) / (2 * scale) : Nat) := by
    rw [mulS_eq (by omega) (by omega), Int.natAbs_natCast, if_pos (by omega)]
    simp [applySign]
  refine ⟨_, hmul, hle, ?_⟩
  have hround := two_mul_natAbs_mulS_sub_le hmul
  generalize (2 * (r * r) + scale) / (2 * scale) = p at *
  have hup : 2 * ((r : Int) * r - p * scale) ≤ scale := by omega
  have hroot : (n : Int) * scale < (r + 1) * (r + 1) := by exact_mod_cast hhi
  linarith

/-! ### The loop of POWU (R133) -/

/-- MulDivFpU answers as the statements' relation says (R82). -/
theorem fpProduct_mulDivFpU (a b : Nat) : FpProduct a b (mulDivFpU a b) := by
  obtain ⟨hlo, hhi⟩ := half_up_bracket (a * b)
  rw [mulDivFpU_eq]
  generalize (2 * (a * b) + scale) / (2 * scale) = q at *
  rw [scale_eq] at hlo hhi
  refine ⟨q, hlo, by omega, ?_⟩
  by_cases hq : q < 2 ^ 256
  · exact .inl ⟨by omega, fit_ok hq⟩
  · exact .inr ⟨by omega, fit_overflow (by omega)⟩

/-- The loop with a round for each bit of the exponent runs as the statements' relation says. -/
theorem powuLoop_relation {fuel k : Nat} (hk : k < 2 ^ fuel) (xa r : Nat) :
    PowuLoop k xa r (powuLoop fuel k xa r) := by
  induction fuel generalizing k xa r with
  | zero =>
    obtain rfl : k = 0 := by omega
    exact .done xa r
  | succ fuel ih =>
    rcases Nat.eq_zero_or_pos k with rfl | hpos
    · rw [powuLoop_done]
      exact .done xa r
    have hhalf : k / 2 < 2 ^ fuel := by omega
    rw [powuLoop_round hpos]
    have hsquare := fpProduct_mulDivFpU xa xa
    generalize mulDivFpU xa xa = square at *
    cases square with
    | error e => exact .squareFails k xa r e hpos hsquare
    | ok xa' =>
      by_cases hodd : k % 2 = 1
      · simp only [Except.bind, if_pos hodd]
        have hproduct := fpProduct_mulDivFpU r xa'
        generalize mulDivFpU r xa' = product at *
        cases product with
        | error e => exact .productFails k xa xa' r e hpos hsquare hodd hproduct
        | ok r' => exact .odd k xa xa' r r' _ hpos hsquare hodd hproduct (ih hhalf xa' r')
      · simp only [Except.bind, if_neg hodd]
        exact .even k xa xa' r _ hpos hsquare (by omega) (ih hhalf xa' r)

theorem signedOf_eq (neg : Bool) (r : Nat) :
    signedOf neg r = if r < 2 ^ 255 then .ok (applySign r neg) else .error .overflow := by
  split
  case isTrue h => exact signedOf_ok neg h
  case isFalse h => exact signedOf_overflow neg (not_lt.1 h)

/-- The sign of POWU: negative exactly for a negative base and an odd exponent (R133). -/
theorem applySign_isNeg_and_odd (r : Nat) (x : Int) (n : Nat) :
    applySign r (isNeg x && n % 2 == 1) = if x < 0 ∧ n % 2 = 1 then -(r : Int) else r := by
  simp [applySign, isNeg]

/-! ### POWU at the exponents 0 and 1, and at whole bases -/

theorem powuS_zero {x : Int} (h : x ≠ -(2 ^ 255)) : powuS x 0 = .ok scale := by
  rw [powuS_eq h, Nat.zero_div, powuLoop_done, Except.bind, if_neg (by decide),
    signedOf_ok _ (by decide), applySign_isNeg_and_odd, if_neg (by simp)]

theorem applySign_natAbs (x : Int) : applySign x.natAbs (isNeg x) = x := by
  by_cases hx : x < 0
  · simp [applySign, isNeg, hx, abs_of_neg]
  · simp [applySign, isNeg, hx, abs_of_nonneg (not_lt.1 hx)]

theorem powuS_one {x : Int} (h : x.natAbs < 2 ^ 255) : powuS x 1 = .ok x := by
  rw [powuS_eq (by omega)]
  simp [Except.bind, signedOf_ok _ h, applySign_natAbs]

/-- The product of two whole values is exact (R82). -/
theorem mulDivFpU_whole (a b : Nat) : mulDivFpU (a * scale) (b * scale) = fit (a * b * scale) := by
  have hexact : a * scale * (b * scale) = a * b * scale * 10 ^ 18 := by
    rw [← scale_eq]
    ring
  rw [mulDivFpU_eq, half_up_eq_of_bracket (q := a * b * scale) (by omega) (by omega)]

/-- Two range checks in a row are the last one, where the first value is no greater. -/
theorem fit_bind_fit {q q' : Nat} {f : Nat → Except CmdError Nat} (hle : q ≤ q')
    (hf : q < 2 ^ 256 → f q = fit q') : (fit q).bind f = fit q' := by
  by_cases hq : q < 2 ^ 256
  · rw [fit_ok hq, ← hf hq, Except.bind]
  · rw [fit_overflow (not_lt.1 hq), fit_overflow ((not_lt.1 hq).trans hle), Except.bind]

/-- On whole values every step is exact, so the loop overflows only where the power does: each value
it squares or multiplies is at most the power. -/
theorem powuLoop_whole {fuel k a c : Nat} (hk : k < 2 ^ fuel) (hc : 0 < a → 0 < c)
    (hr : c * scale < 2 ^ 256) :
    powuLoop fuel k (a * scale) (c * scale) = fit (c * (a * a) ^ k * scale) := by
  induction fuel generalizing k a c with
  | zero =>
    obtain rfl : k = 0 := by omega
    rw [powuLoop_done, pow_zero, mul_one, fit_ok hr]
  | succ fuel ih =>
    rcases Nat.eq_zero_or_pos k with rfl | hpos
    · rw [powuLoop_done, pow_zero, mul_one, fit_ok hr]
    have hhalf : k / 2 < 2 ^ fuel := by omega
    have hpow : a * a ≤ (a * a) ^ k := Nat.le_self_pow hpos.ne' _
    have hsquare : a * a ≤ c * (a * a) ^ k := by
      rcases Nat.eq_zero_or_pos a with rfl | ha
      · exact Nat.zero_le _
      · exact hpow.trans (Nat.le_mul_of_pos_left _ (hc ha))
    rw [powuLoop_round hpos, mulDivFpU_whole]
    refine fit_bind_fit (Nat.mul_le_mul_right _ hsquare) fun _ => ?_
    by_cases hodd : k % 2 = 1
    · rw [if_pos hodd, mulDivFpU_whole]
      refine fit_bind_fit (Nat.mul_le_mul_right _ (Nat.mul_le_mul_left _ hpow)) fun hfit => ?_
      rw [ih hhalf (fun ha => Nat.mul_pos (hc (Nat.pos_of_mul_pos_left ha)) ha) hfit, ← pow_two (a * a),
        ← pow_mul, mul_assoc c, ← pow_succ', Nat.two_mul_div_two_add_one_of_odd (Nat.odd_iff.2 hodd)]
    · rw [if_neg hodd, Except.bind, ih hhalf (fun ha => hc (Nat.pos_of_mul_pos_left ha)) hr,
        ← pow_two (a * a), ← pow_mul, Nat.two_mul_div_two_of_even (Nat.even_iff.2 (by omega))]

/-- POWU of a whole base is the exact power, where that is in range. -/
theorem powuS_whole {b n : Nat} (hb : b * scale < 2 ^ 255) (hn : n < 2 ^ 256) :
    powuS (b * scale : Nat) n =
      if b ^ n * scale < 2 ^ 255 then .ok (b ^ n * scale : Nat) else .error .overflow := by
  obtain ⟨hstart, hfit⟩ : (if n % 2 = 1 then b * scale else scale) = b ^ (n % 2) * scale ∧
      b ^ (n % 2) * scale < 2 ^ 256 := by
    rcases Nat.mod_two_eq_zero_or_one n with h | h
    · rw [h, if_neg (by decide), pow_zero, one_mul]
      exact ⟨rfl, by decide⟩
    · rw [h, if_pos rfl, pow_one]
      exact ⟨rfl, by omega⟩
  have hnonneg : isNeg (b * scale : Nat) = false := decide_eq_false (by omega)
  rw [powuS_eq (by omega), Int.natAbs_natCast, hstart,
    powuLoop_whole (by omega) (fun h => Nat.pow_pos h) hfit, fit_bind_signedOf, ← pow_two,
    ← pow_mul, ← pow_add, Nat.mod_add_div, hnonneg]
  rfl

/-- A whole base: the exact power is in RES, or POWU overflows. -/
theorem powu_whole_outcome {s : State} {b : Nat} (hb : sint s.opa = (b * scale : Nat)) :
    (b ^ uint s.opb * scale ≤ 2 ^ 255 - 1 →
      Succeeds .powu s (b ^ uint s.opb * scale : Nat)) ∧
    (2 ^ 255 - 1 < b ^ uint s.opb * scale → Raises .powu s .overflow) := by
  have hlt := sint_lt s.opa
  refine signed_outcome (Int.natAbs_natCast _) ?_
  rw [evaluate, hb, powuS_whole (by omega) (uint_lt s.opb)]

theorem two_pow_mul_scale_le_iff (n : Nat) : 2 ^ n * scale ≤ 2 ^ 255 - 1 ↔ n ≤ 195 := by
  have hmono {m k : Nat} (h : m ≤ k) : 2 ^ m * scale ≤ 2 ^ k * scale :=
    Nat.mul_le_mul_right _ (Nat.pow_le_pow_right (by decide) h)
  constructor
  · intro hle
    by_contra hn
    exact absurd ((hmono (not_le.1 hn)).trans hle) (by decide)
  · exact fun hn => (hmono hn).trans (by decide)

/-! ### The ranges of POW's steps (R134) -/

theorem natAbs_lt_of_log2S {P : Params} {v : Word} {l : Int} (h : log2S P (sint v) = .ok l) :
    l.natAbs < 2 ^ 255 := by
  rcases le_or_gt (sint v) 0 with hv | hv
  · rw [log2S_domain P hv] at h
    cases h
  · obtain ⟨r, hr, hlo, hhi⟩ := log2S_ok P hv (sint_lt v)
    obtain rfl : r = l := Except.ok.inj (hr.symm.trans h)
    rw [scale_int] at *
    omega

theorem natAbs_lt_of_mulS {x y p : Int} (h : mulS x y = .ok p) : p.natAbs < 2 ^ 255 := by
  by_cases hdom : x = -(2 ^ 255) ∨ y = -(2 ^ 255)
  · rw [mulS_domain hdom] at h
    cases h
  · obtain ⟨hx, hy⟩ := not_or.1 hdom
    rw [mulS_eq hx hy] at h
    split at h
    case isTrue hlt => rwa [← Except.ok.inj h, natAbs_applySign]
    case isFalse => cases h

theorem exp2Pos_lt {x n : Nat} (h : exp2Pos defaultParams x = .ok n) : n < 2 ^ 252 := by
  by_cases hx : x < 192 * scale
  · rw [exp2Pos_ok _ hx] at h
    exact Except.ok.inj h ▸ (exp2CoreDefault_range hx).2
  · rw [exp2Pos_overflow _ (not_lt.1 hx)] at h
    cases h

/-- EXP2 is below 2^252 raw: from 0 up it is the core's value, and below 0 a reciprocal (R153). -/
theorem exp2S_lt {x : Int} {n : Nat} (h : exp2S defaultParams x = .ok n) : n < 2 ^ 252 := by
  rcases le_or_gt 0 x with h0 | h0
  · rw [exp2S_nonneg _ h0] at h
    exact exp2Pos_lt h
  by_cases hcut : x < -(defaultParams.exp2NegCutoff : Int)
  · rw [exp2S_zero _ hcut] at h
    obtain rfl := Except.ok.inj h
    decide
  · rw [exp2S_neg _ h0 (not_lt.1 hcut)] at h
    cases hp : exp2Pos defaultParams x.natAbs with
    | ok m =>
      rw [hp] at h
      obtain rfl : inv m = n := Except.ok.inj h
      exact (Nat.div_le_self _ _).trans_lt (by decide)
    | error e =>
      rw [hp] at h
      cases h

theorem natAbs_lt_of_exp2S {x r : Int} (h : ofMagnitude (exp2S defaultParams x) = .ok r) :
    r.natAbs < 2 ^ 255 := by
  obtain ⟨n, hn, rfl⟩ := ofMagnitude_eq_ok_iff.1 h
  exact (exp2S_lt hn).trans (by decide)

end Sys2Proof.Machine
end

section
/-! The settled statements of 42_power_root. -/
namespace Sys2Proof.PowerRoot

open Sys2Proof.Machine Sys2Proof.Claims

/-- Settles O23: the bracket names the root, which is at most the radicand. -/
theorem sqrtIsFloorRoot : Obligations.SqrtIsFloorRoot := by
  refine ⟨rfl, fun s => ?_⟩
  rw [← scale_int_eq_pow]
  have hnonneg : 0 ≤ sint s.opa * scale → 0 ≤ sint s.opa := fun h => by
    rw [scale_int] at h
    omega
  refine ⟨fun hneg => raises_of_evaluate ?_, fun hbig => raises_of_evaluate ?_,
    fun r h0 hlo hhi hle => succeeds_of_evaluate_isqrt ?_ h0 hlo hhi (by omega)⟩
  · rw [evaluate, sqrtS_domain hneg]
    rfl
  · rw [evaluate, sqrtS_overflow (hnonneg (by omega)) (by omega)]
    rfl
  · rw [evaluate, sqrtS_ok (hnonneg ((mul_self_nonneg r).trans hlo)) (by omega)]

/-- Settles O24: the bracket names the root of the product, which is at most the product. -/
theorem gmIsFloorRootOfProduct : Obligations.GmIsFloorRootOfProduct := by
  refine ⟨rfl, fun s => ⟨fun hout => raises_of_evaluate ?_, fun hin hneg => raises_of_evaluate ?_,
    fun r hin h0 hlo hhi => ?_⟩⟩
  · rw [evaluate, gmS_overflow (by unfold Representable at hout; omega)]
    rfl
  · rw [evaluate, gmS_domain hin.1 hneg]
    rfl
  · have hlt := Int.lt_of_le_sub_one hin.2
    refine succeeds_of_evaluate_isqrt ?_ h0 hlo hhi hlt
    rw [evaluate, gmS_ok ((mul_self_nonneg r).trans hlo) hlt]

/-- Settles O25: 255 rounds cover half of any exponent, and they run as the relation says. -/
theorem powuFollowsTheBinaryMethod : Obligations.PowuFollowsTheBinaryMethod := by
  refine ⟨rfl, fun s => ⟨fun hmin => raises_of_evaluate ?_, fun hx => ?_⟩⟩
  · rw [evaluate, hmin, powuS_domain]
  have hn := uint_lt s.opb
  rw [← scale_eq]
  refine ⟨_, powuLoop_relation (fuel := 255) (by omega) _ _, ?_⟩
  have heval := powuS_eq hx (uint s.opb)
  generalize powuLoop 255 _ _ _ = out at *
  cases out with
  | error e => exact raises_of_evaluate heval
  | ok r =>
    refine signed_outcome ?_ (heval.trans ((signedOf_eq _ r).trans ?_))
    · split <;> omega
    · rw [applySign_isNeg_and_odd]

/-- Settles O26: the exponents 0 and 1 run no round; the bases 0 and 2.0 are whole, so their powers
are exact, and 2^195 is the last power of two in range. -/
theorem powuCornerCases : Obligations.PowuCornerCases := by
  intro s hx
  refine ⟨fun h => ?_, fun h => ?_, fun h0 h => ?_, fun h2 h => ?_, fun h2 h => ?_⟩
  · refine succeeds_of_evaluate ?_ (by decide)
    rw [evaluate, h, powuS_zero hx, scale_int_eq_pow]
  · refine succeeds_of_evaluate ?_ (natAbs_sint_lt hx)
    rw [evaluate, h, powuS_one (natAbs_sint_lt hx)]
  · have hzero := (powu_whole_outcome (s := s) (b := 0) (by rw [h0, zero_mul]; rfl)).1
    rw [zero_pow (by omega), zero_mul] at hzero
    exact hzero (Nat.zero_le _)
  · have htwo := (powu_whole_outcome (s := s) (b := 2) h2).1
      ((two_pow_mul_scale_le_iff _).2 h)
    rwa [Nat.cast_mul, Nat.cast_pow, scale_int_eq_pow] at htwo
  · exact (powu_whole_outcome (s := s) (b := 2) h2).2
      (not_le.1 fun hle => absurd ((two_pow_mul_scale_le_iff _).1 hle) (not_le.2 h))

/-- Settles O27: each step's value is in range, so the next command reads it exactly, and the first
error is the error of the whole chain. -/
theorem powIsLog2MulExp2 : Obligations.PowIsLog2MulExp2 := by
  refine ⟨rfl, fun s => ⟨fun hx hy => ?_, fun hx hy => ?_, fun hx => ?_⟩⟩
  · refine succeeds_of_evaluate ?_ (by decide)
    rw [evaluate, hx, powS_zero, if_pos hy]
    rfl
  · refine succeeds_of_evaluate ?_ (by decide)
    rw [evaluate, hx, powS_zero, if_neg hy]
    rfl
  have hpow : evaluate defaultParams .pow s.opa s.opb s.opc =
      ofMagnitude ((log2S defaultParams (sint s.opa)).bind fun l =>
        (mulS l (sint s.opb)).bind (exp2S defaultParams)) := by
    rw [evaluate, powS_eq _ hx]
  refine ⟨_, ends_of_evaluate rfl fun _ => natAbs_lt_of_log2S, ?_⟩
  rw [evaluate]
  cases hl : log2S defaultParams (sint s.opa) with
  | error e => exact raises_of_evaluate (by rw [hpow, hl]; rfl)
  | ok l =>
    have hencl : sint (enc l) = l := sint_enc_of_natAbs_lt (natAbs_lt_of_log2S hl)
    refine ⟨mulS l (sint s.opb), ends_of_evaluate (by rw [evaluate, hencl])
      fun _ => natAbs_lt_of_mulS, ?_⟩
    cases hp : mulS l (sint s.opb) with
    | error e => exact raises_of_evaluate (by rw [hpow, hl, Except.bind, hp]; rfl)
    | ok p =>
      have hencp : sint (enc p) = p := sint_enc_of_natAbs_lt (natAbs_lt_of_mulS hp)
      exact ⟨ofMagnitude (exp2S defaultParams p),
        ends_of_evaluate (by rw [evaluate, hencp]) fun _ => natAbs_lt_of_exp2S,
        ends_of_evaluate (by rw [hpow, hl, Except.bind, hp, Except.bind]) fun _ => natAbs_lt_of_exp2S⟩

/-- Settles O28: the root that SQRT left is in range, so both operands hold it exactly. -/
theorem squareOfSqrtIsBelow : Obligations.SquareOfSqrtIsBelow := by
  intro s r hsqrt
  obtain ⟨m, hm, hr⟩ := evaluate_of_succeeds hsqrt
  obtain ⟨n, hn, rfl⟩ := ofMagnitude_eq_ok_iff.1 hm
  obtain ⟨x, hopa, hlo, hhi, hlt⟩ := root_of_sqrtS hn
  have henc : sint (enc n) = n := sint_enc_of_natAbs_lt (by omega)
  obtain rfl : (n : Int) = r := henc.symm.trans hr
  have hx := sint_lt s.opa
  rw [hopa] at hx ⊢
  obtain ⟨p, hp, hpx, herr⟩ := exists_mulS_root (by omega) hlo hhi
  refine ⟨p, succeeds_of_evaluate ?_ (by omega), by omega, scale_int_eq_pow ▸ herr⟩
  rw [evaluate, henc, hp]

end Sys2Proof.PowerRoot
end

section
/-! What LOG2 answers (43_transcendental R151): its rounds as the sum of the statements, its values at
the powers of two, and the real logarithm as its bound from 1.0 up. -/
namespace Sys2Proof.Machine

open Sys2Proof.Claims

/-- The logarithm of any register is in the signed range, so RES holds it. -/
theorem succeeds_log2 {s : State} {l : Int} (h : log2S defaultParams (sint s.opa) = .ok l) :
    Succeeds .log2 s l :=
  succeeds_of_evaluate h (natAbs_lt_of_log2S h)

/-! ### The rounds as a sum -/

theorem mantissa_succ (y k : Nat) : mantissa y (k + 1) = log2Round (mantissa y k) := rfl

/-- Round k + 1 from `y` is round k from what the first round leaves. -/
theorem mantissa_succ_eq_of_round (y k : Nat) : mantissa y (k + 1) = mantissa (log2Round y) k := by
  induction k with
  | zero => rfl
  | succ k ih => rw [mantissa_succ, ih, ← mantissa_succ]

theorem roundAdds_eq_log2Adds (y k : Nat) :
    roundAdds y k = log2Adds (halfScale / 2 ^ k) (mantissa y k) := rfl

/-- The loop adds up what its rounds add, each at half the weight of the one before. -/
theorem log2Loop_eq_sum (rounds d y : Nat) :
    log2Loop rounds d y 0 = ∑ k ∈ Finset.range rounds, log2Adds (d / 2 ^ k) (mantissa y k) := by
  induction rounds generalizing d y with
  | zero => rfl
  | succ rounds ih =>
    rw [log2Loop_succ, log2Loop_add, ih, Finset.sum_range_succ', Nat.zero_add, Nat.add_comm, pow_zero,
      Nat.div_one, mantissa]
    simp only [mantissa_succ_eq_of_round, pow_succ', Nat.div_div_eq_div_mul]

/-- LOG2 from 1.0 up at the default parameters, as the statements write it. -/
theorem log2Reduced_default {x n : Nat} (h1 : 2 ^ n * scale ≤ x) (h2 : x < 2 ^ (n + 1) * scale) :
    (log2Reduced defaultParams x : Int) =
      n * 10 ^ 18 + ∑ k ∈ Finset.range 59, (roundAdds (x / 2 ^ n) k : Int) := by
  have hiters : defaultParams.log2Iters = 59 := rfl
  simp only [log2Reduced_eq _ h1 h2, hiters, log2Loop_eq_sum, ← roundAdds_eq_log2Adds, Nat.cast_add,
    Nat.cast_mul, Nat.cast_sum, scale_int_eq_pow]

/-! ### The two sides of 1.0 -/

theorem log2S_natCast_ge (P : Params) {x : Nat} (h : scale ≤ x) :
    log2S P x = .ok (log2Reduced P x) :=
  log2S_ge P (Int.ofNat_le.2 h)

theorem log2S_natCast_lt (P : Params) {x : Nat} (h0 : 0 < x) (h : x < scale) :
    log2S P x = .ok (-(log2Reduced P (inv x) : Int)) :=
  log2S_lt P (Int.natCast_pos.2 h0) (Int.ofNat_lt.2 h)

theorem scale_le_two_pow_mul_scale (k : Nat) : scale ≤ 2 ^ k * scale :=
  Nat.le_mul_of_pos_left _ (Nat.two_pow_pos k)

/-! ### Powers of two -/

/-- At a power of two the mantissa is 1.0, and no round adds anything. -/
theorem log2Reduced_two_pow (P : Params) (k : Nat) : log2Reduced P (2 ^ k * scale) = k * scale := by
  have hlt : 2 ^ k * scale < 2 ^ (k + 1) * scale :=
    Nat.mul_lt_mul_of_pos_right (Nat.pow_lt_pow_succ (by decide)) scale_pos
  rw [log2Reduced_eq P le_rfl hlt, Nat.mul_div_cancel_left _ (Nat.two_pow_pos k), log2Loop_one,
    Nat.add_zero]

theorem log2S_two_pow (P : Params) (k : Nat) : log2S P (2 ^ k * 10 ^ 18) = .ok (k * 10 ^ 18) := by
  have h := log2S_natCast_ge P (scale_le_two_pow_mul_scale k)
  rwa [log2Reduced_two_pow, Nat.cast_mul, Nat.cast_mul, scale_int_eq_pow, Nat.cast_pow] at h

/-- The reciprocal of an exact inverse power of two is exact (R150). -/
theorem inv_of_mul_two_pow {x k : Nat} (h : x * 2 ^ k = scale) : inv x = 2 ^ k * scale := by
  have hx : 0 < x := Nat.pos_of_mul_pos_right (h ▸ scale_pos)
  have hone : 10 ^ 36 = x * (2 ^ k * scale) := by
    rw [← Nat.mul_assoc, h]
    decide
  rw [inv, hone, Nat.mul_div_cancel_left _ hx]

theorem log2S_inv_two_pow (P : Params) {k x : Nat} (hk : 0 < k) (h : x * 2 ^ k = scale) :
    log2S P x = .ok (-(k * 10 ^ 18)) := by
  have hx : 0 < x := Nat.pos_of_mul_pos_right (h ▸ scale_pos)
  have hlt : x < scale := h ▸ lt_mul_of_one_lt_right hx (Nat.one_lt_two_pow hk.ne')
  rw [log2S_natCast_lt P hx hlt, inv_of_mul_two_pow h, log2Reduced_two_pow, Nat.cast_mul,
    scale_int_eq_pow]

/-! ### The real logarithm as a bound -/

/-- The real binary logarithm of the value that a raw magnitude stands for. -/
noncomputable def realLog2 (y : Nat) : ℝ := Real.logb 2 ((y : ℝ) / scale)

theorem realLog2_mono {y z : Nat} (hy : 0 < y) (h : y ≤ z) : realLog2 y ≤ realLog2 z := by
  have hs : (0 : ℝ) < scale := Nat.cast_pos.2 scale_pos
  have hy' : (0 : ℝ) < y := Nat.cast_pos.2 hy
  refine Real.logb_le_logb_of_le one_lt_two (by positivity) ?_
  gcongr

theorem realLog2_nonneg {y : Nat} (h : scale ≤ y) : 0 ≤ realLog2 y := by
  have hs : (scale : ℝ) ≠ 0 := Nat.cast_ne_zero.2 scale_pos.ne'
  have hone : realLog2 scale = 0 := by rw [realLog2, div_self hs, Real.logb_one]
  exact hone ▸ realLog2_mono scale_pos h

/-- A shift right by n takes at least n off the logarithm. -/
theorem realLog2_shift_le {y n : Nat} (h : 0 < y / 2 ^ n) :
    realLog2 (y / 2 ^ n) ≤ realLog2 y - n := by
  have hs : (0 : ℝ) < scale := Nat.cast_pos.2 scale_pos
  have hy : (0 : ℝ) < y := Nat.cast_pos.2 (Nat.pos_of_div_pos h)
  have hle : ((y / 2 ^ n : Nat) : ℝ) ≤ y / 2 ^ n := by exact_mod_cast Nat.cast_div_le (α := ℝ)
  have hq : (0 : ℝ) < (y / 2 ^ n : Nat) := Nat.cast_pos.2 h
  calc realLog2 (y / 2 ^ n)
      ≤ Real.logb 2 ((y : ℝ) / scale / 2 ^ n) := by
        refine Real.logb_le_logb_of_le one_lt_two (by positivity) ?_
        rw [div_right_comm]
        gcongr
    _ = realLog2 y - n := by
        rw [Real.logb_div (by positivity) (by positivity), Real.logb_pow,
          Real.logb_self_eq_one one_lt_two, mul_one, realLog2]

/-- The truncated square at most doubles the logarithm. -/
theorem realLog2_square_le {y : Nat} (h : 0 < y * y / scale) :
    realLog2 (y * y / scale) ≤ 2 * realLog2 y := by
  have hs : (0 : ℝ) < scale := Nat.cast_pos.2 scale_pos
  have hle : ((y * y / scale : Nat) : ℝ) ≤ (y * y : Nat) / scale := Nat.cast_div_le
  have hq : (0 : ℝ) < (y * y / scale : Nat) := Nat.cast_pos.2 h
  calc realLog2 (y * y / scale)
      ≤ Real.logb 2 (((y : ℝ) / scale) ^ 2) := by
        refine Real.logb_le_logb_of_le one_lt_two (by positivity) ?_
        rw [div_pow, pow_two, pow_two, ← div_div, ← Nat.cast_mul]
        gcongr
    _ = 2 * realLog2 y := by rw [Real.logb_pow, realLog2, Nat.cast_ofNat]

/-- One round, at weight 1: the bit it adds and the logarithm of what it leaves are at most twice the
logarithm before it. -/
theorem log2Adds_add_realLog2_round_le {y : Nat} (h : scale ≤ y) :
    (log2Adds 1 y : ℝ) + realLog2 (log2Round y) ≤ 2 * realLog2 y := by
  have hs := scale_pos
  have hz : scale ≤ y * y / scale := (Nat.le_div_iff_mul_le hs).2 (Nat.mul_le_mul h h)
  have hsquare := realLog2_square_le (y := y) (by omega)
  rw [log2Adds, log2Round]
  split
  case isTrue hbig =>
    have hhalf := realLog2_shift_le (y := y * y / scale) (n := 1) (by omega)
    rw [pow_one] at hhalf
    linarith
  case isFalse => simpa using hsquare

theorem log2Adds_eq_mul (d y : Nat) : log2Adds d y = d * log2Adds 1 y := by
  simp [log2Adds]

/-- What the rounds add from weight `d` on is at most `2d` times the logarithm of the mantissa. -/
theorem log2Loop_le_realLog2 (rounds d : Nat) {y : Nat} (h1 : scale ≤ y) (h2 : y < 2 * scale) :
    (log2Loop rounds d y 0 : ℝ) ≤ 2 * d * realLog2 y := by
  induction rounds generalizing d y with
  | zero =>
    have hnonneg := realLog2_nonneg h1
    rw [log2Loop, Nat.cast_zero]
    positivity
  | succ rounds ih =>
    obtain ⟨hlo, hhi⟩ := log2Round_range h1 h2
    have hrest := ih (d / 2) hlo hhi
    have hround := log2Adds_add_realLog2_round_le h1
    have hnext := realLog2_nonneg hlo
    have hweight : 2 * ((d / 2 : Nat) : ℝ) ≤ d := by exact_mod_cast Nat.mul_div_le d 2
    rw [log2Loop_succ, log2Loop_add, Nat.zero_add, log2Adds_eq_mul]
    push_cast
    calc (d : ℝ) * log2Adds 1 y + log2Loop rounds (d / 2) (log2Round y) 0
        ≤ d * log2Adds 1 y + d * realLog2 (log2Round y) := by
          linarith [mul_le_mul_of_nonneg_right hweight hnext]
      _ = d * (log2Adds 1 y + realLog2 (log2Round y)) := by ring
      _ ≤ d * (2 * realLog2 y) := by gcongr
      _ = 2 * d * realLog2 y := by ring

theorem log2Reduced_le_realLog2 (P : Params) {x : Nat} (h : scale ≤ x) :
    (log2Reduced P x : ℝ) ≤ scale * realLog2 x := by
  obtain ⟨n, h1, h2⟩ := exists_bracket h
  obtain ⟨hlo, hhi⟩ := mantissa_range h1 h2
  have hloop := log2Loop_le_realLog2 P.log2Iters halfScale hlo hhi
  have hshift := realLog2_shift_le (y := x) (n := n) (scale_pos.trans_le hlo)
  have hhalf : 2 * (halfScale : ℝ) = scale := by exact_mod_cast scale_eq_half.symm
  rw [hhalf] at hloop
  rw [log2Reduced_eq P h1 h2]
  push_cast
  calc (n : ℝ) * scale + log2Loop P.log2Iters halfScale (x / 2 ^ n) 0
      ≤ n * scale + scale * (realLog2 x - n) := by
        have hrounds := hloop.trans (mul_le_mul_of_nonneg_left hshift (Nat.cast_nonneg scale))
        linarith
    _ = scale * realLog2 x := by ring

end Sys2Proof.Machine
end

section
/-! What EXP2 and EXP answer (43_transcendental R152 to R154): the default EXP2_CORE as the floor of a
real number, and the ranges in which they succeed. -/
namespace Sys2Proof.Machine

open Sys2Proof.Claims

/-! ### The default EXP2_CORE (R152) -/

theorem exp2CoreDefault_bracket {x : Nat} (h : x < 192 * scale) :
    (exp2CoreDefault x : ℝ) ≤ exp2Real (x * 2 ^ 64 / scale) ∧
      exp2Real (x * 2 ^ 64 / scale) < exp2CoreDefault x + 1 :=
  exp2Exact_floor (exp2_arg_lt h)

theorem exp2CoreDefault_eq_floor {x : Nat} (h : x < 192 * scale) :
    exp2CoreDefault x = ⌊exp2Real (x * 2 ^ 64 / scale)⌋₊ :=
  ((Nat.floor_eq_iff (by unfold exp2Real; positivity)).2 (exp2CoreDefault_bracket h)).symm

theorem exp2Real_whole (k : Nat) : exp2Real (k * 2 ^ 64) = (2 ^ k * scale : Nat) := by
  have hk : ((k * 2 ^ 64 : Nat) : ℝ) / 2 ^ 64 = k := by
    rw [Nat.cast_mul, Nat.cast_pow, Nat.cast_ofNat, mul_div_cancel_right₀ _ (by positivity)]
  rw [exp2Real, hk, Real.rpow_natCast, Nat.cast_mul, Nat.cast_pow, Nat.cast_ofNat, mul_comm]

theorem exp2CoreDefault_le {x : Nat} (h : x < 192 * scale) :
    exp2CoreDefault x ≤ 2 ^ 192 * scale := by
  rw [exp2CoreDefault_eq_floor h, ← Nat.floor_natCast (R := ℝ) (2 ^ 192 * scale), ← exp2Real_whole]
  exact Nat.floor_mono (exp2Real_mono (exp2_arg_lt h).le)

theorem exp2CoreDefault_whole {k : Nat} (h : k < 192) :
    exp2CoreDefault (k * scale) = 2 ^ k * scale := by
  have harg : k * scale * 2 ^ 64 / scale = k * 2 ^ 64 := by
    rw [Nat.mul_right_comm, Nat.mul_div_cancel _ scale_pos]
  rw [exp2CoreDefault_eq_floor (Nat.mul_lt_mul_of_pos_right h scale_pos), harg, exp2Real_whole,
    Nat.floor_natCast]

theorem exp2CoreDefault_mono {x y : Nat} (hxy : x ≤ y) (h : y < 192 * scale) :
    exp2CoreDefault x ≤ exp2CoreDefault y := by
  rw [exp2CoreDefault_eq_floor h, exp2CoreDefault_eq_floor (hxy.trans_lt h)]
  exact Nat.floor_mono (exp2Real_mono (Nat.div_le_div_right (Nat.mul_le_mul_right _ hxy)))

/-! ### EXP2 (R153) -/

/-- EXP2 from 0 up to below 192.0. -/
theorem exp2S_natCast_ok (P : Params) {x : Nat} (h : x < 192 * scale) :
    exp2S P x = .ok (P.exp2Core x) := by
  rw [exp2S_nonneg P (Int.natCast_nonneg x), Int.natAbs_natCast, exp2Pos_ok P h]

theorem exp2S_overflow (P : Params) {x : Int} (h : (192 * scale : Nat) ≤ x) :
    exp2S P x = .error .overflow := by
  rw [exp2S_nonneg P (by omega), exp2Pos_overflow P (by omega)]

/-- EXP2 below 0 down to the cutoff: the reciprocal of EXP2 of the magnitude. -/
theorem exp2S_neg_natCast_ok (P : Params) {x : Nat} (h0 : 0 < x) (hcut : x ≤ P.exp2NegCutoff)
    (h : x < 192 * scale) : exp2S P (-x) = .ok (inv (P.exp2Core x)) := by
  rw [exp2S_neg P (by omega) (by omega), Int.natAbs_neg, Int.natAbs_natCast, exp2Pos_ok P h]
  rfl

/-- Any EXP2 that evaluates to a value is in the signed range, so RES holds it. -/
theorem succeeds_exp2 {s : State} {n : Nat} (h : exp2S defaultParams (sint s.opa) = .ok n) :
    Succeeds .exp2 s n :=
  succeeds_of_evaluate (by rw [evaluate, h]; rfl) ((exp2S_lt h).trans (by decide))

theorem exp2NegCutoff_default : defaultParams.exp2NegCutoff = 59794705707972522261 := rfl

/-- The default cutoff is below 192.0, so at the defaults EXP2 fails from 192.0 on only. -/
theorem exp2S_default_ok {x : Int} (h : x < (192 * scale : Nat)) :
    ∃ n, exp2S defaultParams x = .ok n := by
  have hscale := scale_eq
  have hcut := exp2NegCutoff_default
  rcases le_or_gt 0 x with h0 | h0
  · obtain ⟨n, rfl⟩ := Int.eq_ofNat_of_zero_le h0
    exact ⟨_, exp2S_natCast_ok _ (by omega)⟩
  by_cases hlow : x < -(defaultParams.exp2NegCutoff : Int)
  · exact ⟨0, exp2S_zero _ hlow⟩
  · obtain ⟨n, rfl⟩ : ∃ n : Nat, x = -n := ⟨x.natAbs, by omega⟩
    exact ⟨_, exp2S_neg_natCast_ok _ (by omega) (by omega) (by omega)⟩

/-! ### EXP (R154) -/

theorem expS_zero (P : Params) {x : Int} (h : x < -expZeroBound P) : expS P x = .ok 0 := if_pos h

theorem expS_overflow (P : Params) {x : Int} (h0 : -expZeroBound P ≤ x) (h : expMax ≤ x) :
    expS P x = .error .overflow := by
  rw [expS, if_neg (not_lt.2 h0), if_pos h]

theorem expS_between (P : Params) {x : Int} (h0 : -expZeroBound P ≤ x) (h : x < expMax) :
    expS P x = (mulS x log2E).bind (exp2S P) := by
  rw [expS, if_neg (not_lt.2 h0), if_neg (not_le.2 h)]

/-- Within EXP's bounds the product by LOG2_E exists. -/
theorem exists_mulS_log2E {x : Int} (h : x.natAbs ≤ expMax.natAbs) : ∃ p, mulS x log2E = .ok p := by
  have hmax : expMax.natAbs = 133084258667509499441 := rfl
  have hlt : log2EMagnitude x.natAbs < 2 ^ 255 := by
    rw [log2EMagnitude_eq]
    omega
  exact ⟨_, by rw [mulS_eq (by omega) (by decide), ← log2EMagnitude, if_pos hlt]⟩

/-- Below EXP_MAX the product by LOG2_E is below 192.0 (R11). -/
theorem mulS_log2E_lt {x p : Int} (h : x < expMax) (hp : mulS x log2E = .ok p) :
    p < (192 * scale : Nat) := by
  have hscale := scale_eq
  rcases le_or_gt 0 x with h0 | h0
  · obtain ⟨n, rfl⟩ := Int.eq_ofNat_of_zero_le h0
    have hiff := le_log2EMagnitude_iff n
    rw [expMax] at h
    rw [eq_of_mulS_natCast_log2E hp]
    omega
  · obtain ⟨n, rfl⟩ : ∃ n : Nat, x = -n := ⟨x.natAbs, by omega⟩
    rw [eq_of_mulS_neg_natCast_log2E hp]
    omega

end Sys2Proof.Machine
end

section
/-! The logarithms LN and LOG10 as quotients (43_transcendental R155, R157), and which error an
operation of the family ends in (R158). -/
namespace Sys2Proof.Machine

open Sys2Proof.Claims

/-! ### A logarithm divided by a constant -/

/-- A command that divides LOG2 by a constant of at least 1.0 succeeds on every positive value, and so
do the two commands it is composed of. -/
theorem log2_div_succeeds {i : Instr} {s : State} {c : Int} (hx : 0 < sint s.opa)
    (h : evaluate defaultParams i s.opa s.opb s.opc =
      (log2S defaultParams (sint s.opa)).bind fun l => divS l c)
    (hc : (scale : Int) ≤ c) (hc2 : c < 2 ^ 255) :
    ∃ l r, Succeeds .log2 s l ∧ Succeeds .div { s with opa := enc l, opb := enc c } r ∧
      Succeeds i s r := by
  obtain ⟨l, hl, hlo, hhi⟩ := log2S_ok defaultParams hx (sint_lt s.opa)
  obtain ⟨hdiv, hlt⟩ := divS_log hlo hhi hc hc2
  have hencl : sint (enc l) = l := sint_enc_of_natAbs_lt (natAbs_lt_of_log2S hl)
  have hencc : sint (enc c) = c := sint_enc (by omega) hc2
  refine ⟨l, _, succeeds_log2 hl, succeeds_of_evaluate ?_ hlt, succeeds_of_evaluate ?_ hlt⟩
  · rw [evaluate, hencl, hencc, hdiv]
  · rw [h, hl, Except.bind, hdiv]

theorem log10S_domain (P : Params) {x : Int} (h : x ≤ 0) : log10S P x = .error .domain := if_pos h

theorem log10S_of_entry (P : Params) {x r : Int} (hx : 0 < x) (h : log10Table x = some r) :
    log10S P x = .ok r := by
  rw [log10S, if_neg (not_le.2 hx), h]

theorem log10S_ten_pow (P : Params) {k : Nat} (h : k ≤ 76) :
    log10S P (10 ^ k) = .ok (((k : Int) - 18) * 10 ^ 18) := by
  rw [log10S_of_entry P (by positivity) (log10Table_pow h), scale_int_eq_pow]

theorem log10S_of_no_entry (P : Params) {x : Int} (hx : 0 < x) (h : log10Table x = none) :
    log10S P x = (log2S P x).bind fun l => divS l P.log2Ten := by
  rw [log10S, if_neg (not_le.2 hx), h]

/-! ### Errors and the precision parameters (R158) -/

section
variable {α β : Type}

@[simp] theorem errorOf_ok (a : α) : errorOf (.ok a : Except CmdError α) = none := rfl

@[simp] theorem errorOf_error (e : CmdError) : errorOf (.error e : Except CmdError α) = some e := rfl

@[simp] theorem errorOf_map (f : α → β) (r : Except CmdError α) : errorOf (r.map f) = errorOf r := by
  cases r <;> rfl

@[simp] theorem errorOf_ofMagnitude (r : Except CmdError Nat) : errorOf (ofMagnitude r) = errorOf r :=
  errorOf_map _ r

end

/-- STATUS after a command is a function of the error it ended in. -/
theorem finish_status (r : Except CmdError Int) (s : State) :
    (finish r s).status = (errorOf r).elim (statusOk s.status) (statusRaise · s.status) := by
  cases r <;> rfl

/-- A logarithm divided by a constant fails on the constant alone. -/
theorem errorOf_divS_log {l : Int} (h1 : -60 * scale ≤ l) (h2 : l ≤ 196 * scale) (c : Int) :
    errorOf (divS l c) = if c = -(2 ^ 255) ∨ c = 0 then some .domain else none := by
  have hl : l.natAbs ≤ 196 * scale := by omega
  split
  case isTrue hbad =>
    rcases hbad with rfl | rfl
    · rw [divS_domain (.inr rfl), errorOf_error]
    · rw [divS_zero, errorOf_error]
  case isFalse hgood =>
    obtain ⟨hmin, h0⟩ := not_or.1 hgood
    have hlt : l.natAbs * scale / c.natAbs < 2 ^ 255 :=
      calc l.natAbs * scale / c.natAbs ≤ 196 * scale * scale :=
            (Nat.div_le_self _ _).trans (Nat.mul_le_mul_right _ hl)
        _ < 2 ^ 255 := by decide
    have hlmin : l ≠ -(2 ^ 255) := by
      rw [scale_int] at h1
      omega
    rw [divS_eq hlmin hmin h0, if_pos hlt, errorOf_ok]

section
variable (P Q : Params) {x : Int}

theorem errorOf_log2S_eq (x : Int) : errorOf (log2S P x) = errorOf (log2S Q x) := by
  rcases le_or_gt x 0 with h0 | h0
  · rw [log2S_domain P h0, log2S_domain Q h0]
  · rcases le_or_gt (scale : Int) x with h | h
    · simp [log2S_ge _ h]
    · simp [log2S_lt _ h0 h]

/-- The quotient of a logarithm by a constant fails on the operand and the constant alone. -/
theorem errorOf_log2_div_eq (hx : x < 2 ^ 255) (c : Int) :
    errorOf ((log2S P x).bind fun l => divS l c) = errorOf ((log2S Q x).bind fun l => divS l c) := by
  rcases le_or_gt x 0 with h0 | h0
  · rw [log2S_domain P h0, log2S_domain Q h0]
  · obtain ⟨l, hl, hllo, hlhi⟩ := log2S_ok P h0 hx
    obtain ⟨m, hm, hmlo, hmhi⟩ := log2S_ok Q h0 hx
    rw [hl, hm, Except.bind, Except.bind, errorOf_divS_log hllo hlhi, errorOf_divS_log hmlo hmhi]

theorem errorOf_exp2Pos_eq (x : Nat) : errorOf (exp2Pos P x) = errorOf (exp2Pos Q x) := by
  rcases lt_or_ge x (192 * scale) with h | h
  · simp [exp2Pos_ok _ h]
  · simp [exp2Pos_overflow _ h]

variable {P Q}

theorem errorOf_exp2S_eq (hcut : P.exp2NegCutoff = Q.exp2NegCutoff) (x : Int) :
    errorOf (exp2S P x) = errorOf (exp2S Q x) := by
  have hpos := errorOf_exp2Pos_eq P Q x.natAbs
  rcases le_or_gt 0 x with h0 | h0
  · rwa [exp2S_nonneg P h0, exp2S_nonneg Q h0]
  rcases lt_or_ge x (-(P.exp2NegCutoff : Int)) with h | h
  · rw [exp2S_zero P h, exp2S_zero Q (hcut ▸ h)]
  · rwa [exp2S_neg P h0 h, exp2S_neg Q h0 (hcut ▸ h), errorOf_map, errorOf_map]

theorem errorOf_expS_eq (hcut : P.exp2NegCutoff = Q.exp2NegCutoff) (x : Int) :
    errorOf (expS P x) = errorOf (expS Q x) := by
  have hbound : expZeroBound P = expZeroBound Q := by rw [expZeroBound, expZeroBound, hcut]
  rcases lt_or_ge x (-expZeroBound P) with hlow | hlow
  · rw [expS_zero P hlow, expS_zero Q (hbound ▸ hlow)]
  rcases lt_or_ge x expMax with hhigh | hhigh
  · rw [expS_between P hlow hhigh, expS_between Q (hbound ▸ hlow) hhigh]
    cases mulS x log2E with
    | ok p => exact errorOf_exp2S_eq hcut p
    | error e => rfl
  · rw [expS_overflow P hlow hhigh, expS_overflow Q (hbound ▸ hlow) hhigh]

theorem errorOf_lnS_eq (hx : x < 2 ^ 255) : errorOf (lnS P x) = errorOf (lnS Q x) :=
  errorOf_log2_div_eq P Q hx log2E

theorem errorOf_log10S_eq (hten : P.log2Ten = Q.log2Ten) (hx : x < 2 ^ 255) :
    errorOf (log10S P x) = errorOf (log10S Q x) := by
  rcases le_or_gt x 0 with h0 | h0
  · rw [log10S_domain P h0, log10S_domain Q h0]
  cases h : log10Table x with
  | some r => rw [log10S_of_entry P h0 h, log10S_of_entry Q h0 h]
  | none =>
    rw [log10S_of_no_entry P h0 h, log10S_of_no_entry Q h0 h, hten]
    exact errorOf_log2_div_eq P Q hx Q.log2Ten

/-- The error a command of the family evaluates to (R158). -/
theorem errorOf_evaluate_eq (hcut : P.exp2NegCutoff = Q.exp2NegCutoff) (hten : P.log2Ten = Q.log2Ten)
    {i : Instr} (hi : i ∈ [Instr.log2, .exp2, .exp, .ln, .log10]) (a b c : Word) :
    errorOf (evaluate P i a b c) = errorOf (evaluate Q i a b c) := by
  have hx := sint_lt a
  simp only [List.mem_cons, List.not_mem_nil, or_false] at hi
  rcases hi with rfl | rfl | rfl | rfl | rfl
  · exact errorOf_log2S_eq P Q _
  · rw [evaluate, evaluate, errorOf_ofMagnitude, errorOf_ofMagnitude, errorOf_exp2S_eq hcut]
  · rw [evaluate, evaluate, errorOf_ofMagnitude, errorOf_ofMagnitude, errorOf_expS_eq hcut]
  · exact errorOf_lnS_eq hx
  · exact errorOf_log10S_eq hten hx

end

end Sys2Proof.Machine
end

section
/-! The settled statements of 43_transcendental. -/
namespace Sys2Proof.Transcendental

open Sys2Proof.Machine Sys2Proof.Claims

/-- Settles O29, by the range of the logarithm at any choice of the parameters. -/
theorem log2DomainAndRange : Obligations.Log2DomainAndRange := by
  refine ⟨rfl, fun s => ⟨fun hx => raises_of_evaluate (log2S_domain _ hx), fun hx => ?_⟩⟩
  obtain ⟨r, hr, hlo, hhi⟩ := log2S_ok defaultParams hx (sint_lt s.opa)
  rw [scale_int_eq_pow] at hlo hhi
  exact ⟨r, succeeds_log2 hr, hlo, hhi⟩

/-- Settles O30: the bracket names the whole part, and the loop is the sum of its rounds. -/
theorem log2IsTheWeightedBitSum : Obligations.Log2IsTheWeightedBitSum := by
  intro s x n hlo hhi
  rw [← scale_eq] at hlo hhi
  rw [← log2Reduced_default hlo hhi]
  refine ⟨fun hx => succeeds_log2 ?_, fun h0 h1 hx => succeeds_log2 ?_⟩
  · rw [hx, log2S_natCast_ge _ ((scale_le_two_pow_mul_scale n).trans hlo)]
  · rw [← scale_int_eq_pow] at h1
    obtain ⟨m, hm⟩ := Int.eq_ofNat_of_zero_le h0.le
    rw [hm] at h0 h1 hx ⊢
    have hinv : inv m = x := by exact_mod_cast hx
    rw [log2S_natCast_lt _ (by omega) (by omega), hinv]

/-- Settles O31: the mantissa of a power of two is 1.0, and the reciprocal of an inverse one is
exact. -/
theorem log2IsExactAtPowersOfTwo : Obligations.Log2IsExactAtPowersOfTwo := by
  refine ⟨log2S_two_pow, fun P k x hk hx => ?_, fun s k hx => succeeds_log2 ?_⟩
  · have h0 : 0 ≤ x :=
      nonneg_of_mul_nonneg_left (hx ▸ by positivity) (by positivity : (0 : Int) < 2 ^ k)
    obtain ⟨m, rfl⟩ := Int.eq_ofNat_of_zero_le h0
    exact log2S_inv_two_pow P hk (by rw [scale_eq]; exact_mod_cast hx)
  · rw [hx, log2S_two_pow]

/-- Settles O32: every truncation of a round lowers the mantissa or the weight, so the rounds add at
most its real logarithm. -/
theorem log2NeverExceedsTheTrueLogarithm : Obligations.Log2NeverExceedsTheTrueLogarithm := by
  intro P x r hx hr
  obtain ⟨n, rfl⟩ := Int.eq_ofNat_of_zero_le ((by norm_num : (0 : Int) ≤ 10 ^ 18).trans hx)
  rw [← scale_int_eq_pow] at hx
  have hn : scale ≤ n := by omega
  rw [log2S_natCast_ge P hn] at hr
  obtain rfl := Except.ok.inj hr
  have hscale : ((10 : ℝ) ^ 18) = scale := by exact_mod_cast scale_eq.symm
  rw [hscale, div_le_iff₀' (Nat.cast_pos.2 scale_pos)]
  exact log2Reduced_le_realLog2 P hn

/-- Settles O33: the two brackets of the integer enclosure are of this real number. -/
theorem exp2CoreIsTheExactFloor : Obligations.Exp2CoreIsTheExactFloor := by
  intro x hx
  have hreal : exp2Real (x * 2 ^ 64 / scale) =
      (2 : ℝ) ^ (((x * 2 ^ 64 / 10 ^ 18 : Nat) : ℝ) / 2 ^ 64) * 10 ^ 18 := by
    rw [exp2Real, scale_eq, Nat.cast_pow, Nat.cast_ofNat, mul_comm]
  rw [← hreal]
  exact exp2CoreDefault_bracket (scale_eq ▸ hx)

/-- Settles O34, by the monotony of the real exponential and its value at the whole arguments, both
through the floor. -/
theorem exp2CoreMeetsItsRequirements : Obligations.Exp2CoreMeetsItsRequirements := by
  unfold Obligations.Exp2CoreMeetsItsRequirements
  rw [← scale_eq]
  exact ⟨fun x hx => ⟨(exp2CoreDefault_range hx).1, exp2CoreDefault_le hx⟩,
    fun k hk => exp2CoreDefault_whole (Nat.lt_succ_of_le hk), fun x y => exp2CoreDefault_mono⟩

/-- Settles O35: below 0 the magnitude is in range, so the command on it is the one whose reciprocal
is taken. -/
theorem exp2OverItsWholeRange : Obligations.Exp2OverItsWholeRange := by
  refine ⟨rfl, fun s => ?_⟩
  have hscale := scale_eq
  have hcutoff := exp2NegCutoff_default
  refine ⟨fun hx => raises_of_evaluate ?_, fun h0 hx => succeeds_exp2 ?_, fun h0 hx => ?_,
    fun hx => succeeds_exp2 (exp2S_zero _ (by omega))⟩
  · rw [evaluate, exp2S_overflow _ (by omega)]
    rfl
  · rw [← exp2S_natCast_ok _ (by omega), Int.toNat_of_nonneg h0]
  · obtain ⟨n, hn⟩ : ∃ n : Nat, sint s.opa = -n := ⟨(sint s.opa).natAbs, by omega⟩
    rw [hn] at h0 hx
    have hlt : n < 192 * scale := by omega
    have henc : sint (enc (-sint s.opa)) = n := by rw [hn, neg_neg, sint_enc (by omega) (by omega)]
    refine ⟨defaultParams.exp2Core n, succeeds_exp2 ?_, ?_, ?_⟩
    · rw [henc, exp2S_natCast_ok _ hlt]
    · exact Int.natCast_pos.2 (scale_pos.trans_le (exp2CoreDefault_range hlt).1)
    · have h := exp2S_neg_natCast_ok defaultParams (x := n) (by omega) (by omega) hlt
      exact_mod_cast succeeds_exp2 (hn ▸ h)

/-- Settles O37: between the bounds the product exists and is below 192.0, so each step succeeds and
the next command reads its value exactly. -/
theorem expIsExp2OfMul : Obligations.ExpIsExp2OfMul := by
  refine ⟨rfl, fun s => ?_⟩
  have hbound := expZeroBound_default
  have hmax : expMax = 133084258667509499441 := rfl
  refine ⟨fun hx => succeeds_of_evaluate ?_ (by decide), fun hx => raises_of_evaluate ?_,
    fun hlow hhigh => ?_⟩
  · rw [evaluate, expS_zero _ (by omega)]
    rfl
  · rw [evaluate, expS_overflow _ (by omega) (by omega)]
    rfl
  · obtain ⟨p, hp⟩ := exists_mulS_log2E (x := sint s.opa) (by omega)
    obtain ⟨n, hn⟩ := exp2S_default_ok (mulS_log2E_lt (hmax ▸ hhigh) hp)
    have hplt := natAbs_lt_of_mulS hp
    have hencp : sint (enc p) = p := sint_enc_of_natAbs_lt hplt
    have hencc : sint (enc 1442695040888963407) = log2E := sint_enc_of_natAbs_lt (by decide)
    refine ⟨p, n, succeeds_of_evaluate ?_ hplt, succeeds_exp2 (hencp.symm ▸ hn),
      succeeds_of_evaluate ?_ ((exp2S_lt hn).trans (by decide))⟩
    · rw [evaluate, hencc, hp]
    · rw [evaluate, expS_between _ (by omega) (by omega), hp, Except.bind, hn]
      rfl

/-- Settles O38: LOG2_E is at least 1.0, so the quotient is in range. -/
theorem lnIsLog2DivLog2E : Obligations.LnIsLog2DivLog2E := by
  refine ⟨rfl, fun s => ⟨fun hx => raises_of_evaluate ?_,
    fun hx => log2_div_succeeds hx rfl (by decide) (by decide)⟩⟩
  rw [evaluate, lnS, log2S_domain _ hx]
  rfl

/-- Settles O39: the table has the 77 powers and nothing else, and LOG2_10 is at least 1.0. -/
theorem log10TableElseLog2Div : Obligations.Log10TableElseLog2Div := by
  refine ⟨rfl, fun s => ⟨fun hx => raises_of_evaluate (log10S_domain _ hx),
    fun k hk hx => succeeds_of_evaluate ?_ (by omega),
    fun hx hne => log2_div_succeeds hx ?_ (by decide) (by decide)⟩⟩
  · rw [evaluate, hx, log10S_ten_pow _ hk]
  · exact log10S_of_no_entry _ hx (log10Table_none hne)

/-- Settles O40: every error is decided by the operand, the cutoff and LOG2_10, and STATUS by the
error. -/
theorem errorsIgnorePrecisionParameters : Obligations.ErrorsIgnorePrecisionParameters := by
  refine ⟨fun P Q x hcut hten hx => ?_, fun P Q i s hcut hten hi =>
    ⟨_, _, execAt_next P i s, execAt_next Q i s, ?_⟩⟩
  · have hlt : x < 2 ^ 255 := Int.lt_of_le_sub_one hx.2
    exact ⟨errorOf_log2S_eq P Q x, errorOf_exp2S_eq hcut x, errorOf_expS_eq hcut x,
      errorOf_lnS_eq hlt, errorOf_log10S_eq hten hlt⟩
  · rw [finish_status, finish_status, errorOf_evaluate_eq hcut hten hi]

end Sys2Proof.Transcendental
end

section
/-! CONST and its settled statement (44_constants R180, R181). -/
namespace Sys2Proof.Constants

open Sys2Proof.Machine Sys2Proof.Claims

/-- The word of CONST, an ill-formed selector's included (R180). -/
theorem encode_const (sel : BitVec 8) :
    encode (.const sel) = BitVec.ofNat 256 (0x40 + 256 * sel.toNat) := by
  have hword : 0x40 + 256 * sel.toNat < 2 ^ 256 := by omega
  apply BitVec.eq_of_toNat_eq
  rw [encode_toNat, BitVec.toNat_ofNat, Nat.mod_eq_of_lt hword]
  rfl

theorem constS_of_entry {sel : BitVec 8} {n : Int} (h : constTable sel.toNat = some n) :
    constS sel = .ok n := by
  rw [constS, h]

/-- MIN_VALUE and MAX_VALUE, the two ends of the signed range, are entries themselves. -/
theorem representable_of_entry {sel : Nat} {n : Int} (h : constTable sel = some n) :
    Representable n := by
  unfold constTable at h
  unfold Representable
  split at h <;> cases h <;> decide

/-- CONST reads no register, so it succeeds in every state (R180). -/
theorem succeeds_const {sel : BitVec 8} {n : Int} (h : constTable sel.toNat = some n) (s : State) :
    Succeeds (.const sel) s n :=
  succeeds_of_evaluate_representable (constS_of_entry h) (representable_of_entry h)

/-- Settles O41: the word by its fields, and each value as an entry of the table, all of which RES
holds exactly. -/
theorem constReadsTheTable : Obligations.ConstReadsTheTable :=
  ⟨fun sel _ => encode_const sel, fun s =>
    ⟨succeeds_const rfl s, succeeds_const rfl s, minValue_eq ▸ succeeds_const rfl s,
      maxValue_eq ▸ succeeds_const rfl s, succeeds_const rfl s, succeeds_const rfl s,
      succeeds_const rfl s, succeeds_const rfl s, succeeds_const rfl s⟩⟩

end Sys2Proof.Constants
end

section
/-! The two ways a CMD write ends (60_exceptions R205 to R207), and their settled statements. -/
namespace Sys2Proof.Exceptions

open Sys2Proof.Machine Sys2Proof.Claims

/-- A CMD write answers a next state whatever its word (70_reset R237). -/
theorem portWrite_cmd_next (P : Params) (w : Word) (s : State) :
    portWrite P idxCmd w s =
      .next (finish (evaluateWord P w s.opa s.opb s.opc) (noteOp (opField w) s)) := by
  rw [portWrite_cmd, runWord_next]

/-- The words outside R62 are the words decode rejects, so no rule is evaluated (60_exceptions R203). -/
theorem evaluateWord_of_not_legalWord {w : Word} (hw : ¬ LegalWord w) (P : Params) (a b c : Word) :
    evaluateWord P w a b c = .error .illegal := by
  unfold evaluateWord
  cases hdecode : decode w with
  | ok i => exact absurd ((Encoding.legalWordsAreTheTable w).1 ⟨i, hdecode⟩) hw
  | error reason => rfl

/-- The ending of a command follows its evaluation: a value is committed, an error recorded. -/
theorem committed_or_rejected_finish (r : Except CmdError Int) (op : BitVec 8) (s : State) :
    Committed op s (finish r (noteOp op s)) ∨ ∃ e, Rejected op e s (finish r (noteOp op s)) := by
  cases r with
  | ok n => exact .inl (committed_ok op n s)
  | error e => exact .inr ⟨e, rejected_raiseErr op e s⟩

/-- Settles O42: an illegal word evaluates to IllegalCommand, and its ending records that error under
the word's low byte. -/
theorem illegalWordsRaiseIllegalCommand : Obligations.IllegalWordsRaiseIllegalCommand := by
  intro P w s hw
  refine ⟨_, portWrite_cmd_next P w s, ?_⟩
  rw [evaluateWord_of_not_legalWord hw]
  exact rejected_raiseErr (opField w) .illegal s

/-- Settles O43: a CMD write is one evaluation and one ending, and each ending is one of the two
outcomes. -/
theorem everyCommandCommitsOrRaises : Obligations.EveryCommandCommitsOrRaises :=
  fun P w s => ⟨_, portWrite_cmd_next P w s, committed_or_rejected_finish _ (opField w) s⟩

end Sys2Proof.Exceptions
end

section
/-! Two states that a host keeping to the protocol of 70_reset R232 cannot tell apart: each operation
of the block and the host keeps the agreement, and so does a step under any two RESET_DATA. -/

namespace Sys2Proof.Machine

/-! ### No host step reads RESET_DATA (00_scope R10) -/

section
variable (P : Params) (d : DataReg → Word)

theorem evaluateWord_resetData (w a b c : Word) :
    evaluateWord { P with resetData := d } w a b c = evaluateWord P w a b c := by
  unfold evaluateWord
  cases decode w with
  | ok i =>
    exact evaluate_eq_of_named_params i a b c (fun _ => rfl) (fun _ => ⟨rfl, rfl⟩) (fun _ => rfl)
  | error reason => rfl

theorem portWrite_resetData (addr : BitVec 3) (w : Word) (s : State) :
    portWrite { P with resetData := d } addr w s = portWrite P addr w s := by
  by_cases hcmd : addr = idxCmd
  · rw [hcmd, portWrite_cmd, portWrite_cmd, runWord_next, runWord_next, evaluateWord_resetData]
  · rw [portWrite_other _ hcmd, portWrite_other _ hcmd]

theorem execStmt_resetData (st : HostStmt) (s : State) :
    execStmt { P with resetData := d } st s = execStmt P st s := by
  cases st with
  | memWrite addr bytes v => simp only [execStmt, portWrite_resetData]
  | memRead | li | subi | andi | bnz | beqz | j | halt => rfl

theorem hostStep_resetData (s : State) : hostStep { P with resetData := d } s = hostStep P s := by
  simp only [hostStep, execStmt_resetData]

end

/-! ### Steps and runs by their first event -/

theorem hostStep_of_ended (P : Params) {s : State} (h : s.program[s.pc]? = none) :
    hostStep P s = .next s := by
  rw [hostStep, h]

theorem stepAt_of_reset_due (P : Params) {s : State} {later : List Nat} (h : s.resets = 0 :: later) :
    stepAt P s = .next (setResets later (resetBlock P.resetData s)) := by
  rw [stepAt, h]
  rfl

theorem stepAt_of_reset_later (P : Params) {s : State} {n : Nat} {later : List Nat}
    (h : s.resets = (n + 1) :: later) :
    stepAt P s = mapNext (setResets (n :: later)) (hostStep P s) := by
  rw [stepAt, h]
  exact hostStep_setResets P (n :: later) s

/-- A run of `k + 1` steps that stops nowhere is a step and a run of `k`. -/
theorem exists_step_of_run_succ {M : Host.Core} {s s' : M.State} {k : Nat}
    (h : M.run (k + 1) s = .next s') : ∃ u, M.step s = .next u ∧ M.run k u = .next s' := by
  rw [Host.Core.run] at h
  cases hstep : M.step s with
  | next u => exact ⟨u, rfl, by rwa [hstep] at h⟩
  | fault r => rw [hstep] at h; cases h
  | refused r => rw [hstep] at h; cases h

end Sys2Proof.Machine

namespace Sys2Proof.Safety

open Sys2Proof.Machine

/-! ### What the protocol asks and records (70_reset R232) -/

theorem wordReady_iff (g : Written) {w : Word} {i : Instr} (h : decode w = .ok i) :
    wordReady g w = true ↔ (readsA i = true → g.opa = true) ∧ (readsB i = true → g.opb = true) ∧
      (readsC i = true → g.opc = true) := by
  simp [wordReady, h, and_assoc, imp_iff_not_or]

theorem stmtWrites_opa (g : Written) (n : Nat) (v : HostValue) :
    stmtWrites g (.memWrite idxOpa n v) = { g with opa := true } := by
  simp [stmtWrites, idxOpa, idxOpb, idxOpc]

theorem stmtWrites_opb (g : Written) (n : Nat) (v : HostValue) :
    stmtWrites g (.memWrite idxOpb n v) = { g with opb := true } := by
  simp [stmtWrites, idxOpa, idxOpb, idxOpc]

theorem stmtWrites_opc (g : Written) (n : Nat) (v : HostValue) :
    stmtWrites g (.memWrite idxOpc n v) = { g with opc := true } := by
  simp [stmtWrites, idxOpa, idxOpb, idxOpc]

/-- A write to an index that is no operand register records nothing. -/
theorem stmtWrites_other (g : Written) {addr : BitVec 3} (n : Nat) (v : HostValue)
    (ha : addr ≠ idxOpa) (hb : addr ≠ idxOpb) (hc : addr ≠ idxOpc) :
    stmtWrites g (.memWrite addr n v) = g := by
  simp [stmtWrites, ha, hb, hc]

section
variable {g : Written} {s : State} {st : HostStmt}

theorem stepWrites_of_reset_due (h : resetDue s = true) : stepWrites g s = Written.none := if_pos h

theorem stepReady_of_stmt (hdue : resetDue s = false) (hst : s.program[s.pc]? = some st) :
    stepReady g s = stmtReady g s st := by
  simp [stepReady, dueStmt, hdue, hst]

theorem stepWrites_of_stmt (hdue : resetDue s = false) (hst : s.program[s.pc]? = some st) :
    stepWrites g s = stmtWrites g st := by
  simp [stepWrites, hdue, hst]

theorem stepWrites_of_ended (hdue : resetDue s = false) (hst : s.program[s.pc]? = none) :
    stepWrites g s = g := by
  simp [stepWrites, hdue, hst]

/-- A safe run's first step is ready, and what it leaves is the start of a safe run. -/
theorem safeFor_succ {n : Nat} {u : State} (hsafe : safeFor (n + 1) g s = true)
    (hstep : step s = .next u) : stepReady g s = true ∧ safeFor n (stepWrites g s) u = true := by
  rw [safeFor, hstep] at hsafe
  exact Bool.and_eq_true_iff.1 hsafe

end

/-! ### What the host can observe of two agreeing states -/

section
variable {g : Written} {s t : State}

theorem hostValue_eq_of_agree (h : Agree g s t) (v : HostValue) : hostValue s v = hostValue t v := by
  cases v with
  | reg r => rw [hostValue, hostValue, h.h]
  | fx | raw | hex => rfl

theorem readIndex_eq_of_agree (h : Agree g s t) {addr : BitVec 3} (hr : readReady g s addr = true) :
    readIndex s addr = readIndex t addr := by
  rcases addr_cases addr with rfl | rfl | rfl | rfl | rfl | rfl | rfl | rfl
  · exact h.opa hr
  · exact h.opb hr
  · exact h.opc hr
  · exact h.res hr
  · exact h.status
  all_goals rfl

theorem evaluateWord_eq_of_agree (h : Agree g s t) (P : Params) {w : Word}
    (hw : wordReady g w = true) :
    evaluateWord P w s.opa s.opb s.opc = evaluateWord P w t.opa t.opb t.opc := by
  unfold evaluateWord
  cases hdecode : decode w with
  | ok i =>
    obtain ⟨ha, hb, hc⟩ := (wordReady_iff g hdecode).1 hw
    exact evaluate_eq_of_read_operands P i (h.opa ∘ ha) (h.opb ∘ hb) (h.opc ∘ hc)
  | error reason => rfl

/-! ### The operations keep the agreement -/

theorem resValid_zero : resValid 0 = false := by decide

theorem agree_advance (h : Agree g s t) : Agree g (advance s) (advance t) :=
  { h with pc := congrArg (· + 1) h.pc }

theorem agree_jump (h : Agree g s t) (target : Nat) : Agree g (jump target s) (jump target t) :=
  { h with pc := rfl }

theorem agree_setH (h : Agree g s t) (r : Fin 8) (w : Word) : Agree g (setH r w s) (setH r w t) :=
  { h with h := congrArg (·.set r w) h.h }

theorem agree_setResets (h : Agree g s t) (later : List Nat) :
    Agree g (setResets later s) (setResets later t) :=
  { h with resets := rfl }

/-- A reset leaves every data register unwritten, so any two RESET_DATA agree after it (10_state
R34). -/
theorem agree_resetBlock (h : Agree g s t) (d e : DataReg → Word) :
    Agree Written.none (resetBlock d s) (resetBlock e t) :=
  { h with
    status := rfl
    opa := nofun
    opb := nofun
    opc := nofun
    res := fun hv => nomatch resValid_zero.symm.trans hv }

/-- A command ends two agreeing states alike: a value is one value in both, and an error leaves RES
and RES_VALID as they were (60_exceptions R205, R206). -/
theorem agree_finish_noteOp (h : Agree g s t) (r : Except CmdError Int) (op : BitVec 8) :
    Agree g (finish r (noteOp op s)) (finish r (noteOp op t)) := by
  cases r with
  | ok n =>
    exact { h with
      status := congrArg (fun v => statusOk (putLastOp op v)) h.status
      res := fun _ => rfl }
  | error e =>
    exact { h with
      status := congrArg (fun v => statusRaise e (putLastOp op v)) h.status
      res := fun hv => h.res (by simpa using hv) }

/-- A write of an operand register makes the two states agree on it. -/
theorem agree_writeIndex (h : Agree g s t) (addr : BitVec 3) (w : Word) (n : Nat) (v : HostValue) :
    Agree (stmtWrites g (.memWrite addr n v)) (writeIndex addr w s) (writeIndex addr w t) := by
  rcases addr_cases addr with rfl | rfl | rfl | rfl | rfl | rfl | rfl | rfl
  · rw [stmtWrites_opa]
    exact { h with opa := fun _ => rfl }
  · rw [stmtWrites_opb]
    exact { h with opb := fun _ => rfl }
  · rw [stmtWrites_opc]
    exact { h with opc := fun _ => rfl }
  case inr.inr.inr.inr.inl =>
    rw [stmtWrites_other g n v (by decide) (by decide) (by decide)]
    exact { h with
      status := congrArg (clearSticky w) h.status
      res := fun hv => h.res (by simpa using hv) }
  all_goals
    rw [stmtWrites_other g n v (by decide) (by decide) (by decide)]
    exact h

/-! ### Statements and steps keep the agreement -/

/-- One answers a next state exactly as the other does. -/
theorem exists_next_of_agreeOutcome {r : StepResult} (h : AgreeOutcome g (.next s) r) :
    ∃ u, r = .next u ∧ Agree g s u := by
  cases r with
  | next u => exact ⟨u, rfl, h⟩
  | fault => cases h
  | refused => cases h

theorem agreeOutcome_mapNext_setResets {r q : StepResult} (later : List Nat)
    (h : AgreeOutcome g r q) :
    AgreeOutcome g (mapNext (setResets later) r) (mapNext (setResets later) q) := by
  cases r with
  | next s =>
    obtain ⟨t, rfl, hst⟩ := exists_next_of_agreeOutcome h
    exact agree_setResets hst later
  | fault | refused => cases q <;> exact h

variable (P : Params)

theorem agreeOutcome_memRead (h : Agree g s t) (dst : Fin 8) {addr : BitVec 3} (bytes : Nat)
    (hr : readReady g s addr = true) :
    AgreeOutcome g (execStmt P (.memRead dst addr bytes) s)
      (execStmt P (.memRead dst addr bytes) t) := by
  by_cases hbytes : bytes = accessBytes
  · rw [hbytes, execStmt_memRead, execStmt_memRead, readIndex_eq_of_agree h hr]
    exact agree_advance (agree_setH h dst _)
  · rw [execStmt_memRead_refused P dst addr hbytes, execStmt_memRead_refused P dst addr hbytes]
    rfl

theorem agreeOutcome_portWrite (h : Agree g s t) {addr : BitVec 3} {w : Word} (n : Nat)
    (v : HostValue) (hr : addr = idxCmd → wordReady g w = true) :
    AgreeOutcome (stmtWrites g (.memWrite addr n v)) (advanceAfter (portWrite P addr w s))
      (advanceAfter (portWrite P addr w t)) := by
  by_cases hcmd : addr = idxCmd
  · subst hcmd
    rw [portWrite_cmd, portWrite_cmd, runWord_next, runWord_next,
      evaluateWord_eq_of_agree h P (hr rfl),
      stmtWrites_other g n v (by decide) (by decide) (by decide)]
    exact agree_advance (agree_finish_noteOp h _ _)
  · rw [portWrite_other P hcmd, portWrite_other P hcmd]
    exact agree_advance (agree_writeIndex h addr w n v)

theorem agreeOutcome_memWrite (h : Agree g s t) (addr : BitVec 3) (bytes : Nat) (v : HostValue)
    (hr : stmtReady g s (.memWrite addr bytes v) = true) :
    AgreeOutcome (stmtWrites g (.memWrite addr bytes v)) (execStmt P (.memWrite addr bytes v) s)
      (execStmt P (.memWrite addr bytes v) t) := by
  by_cases hbytes : bytes = accessBytes
  · subst hbytes
    cases hv : hostValue s v with
    | ok w =>
      rw [execStmt_memWrite P addr hv, execStmt_memWrite P addr (hostValue_eq_of_agree h v ▸ hv)]
      refine agreeOutcome_portWrite P h _ v fun hcmd => ?_
      simpa [stmtReady, hv, hcmd] using hr
    | error f =>
      rw [execStmt_memWrite_fault P addr hv,
        execStmt_memWrite_fault P addr (hostValue_eq_of_agree h v ▸ hv)]
      rfl
  · rw [execStmt_memWrite_refused P addr hbytes, execStmt_memWrite_refused P addr hbytes]
    rfl

theorem agreeOutcome_li (h : Agree g s t) (dst : Fin 8) (v : HostValue) :
    AgreeOutcome g (execStmt P (.li dst v) s) (execStmt P (.li dst v) t) := by
  cases hv : hostValue s v with
  | ok w =>
    rw [execStmt_li P dst hv, execStmt_li P dst (hostValue_eq_of_agree h v ▸ hv)]
    exact agree_advance (agree_setH h dst w)
  | error f =>
    rw [execStmt_li_fault P dst hv, execStmt_li_fault P dst (hostValue_eq_of_agree h v ▸ hv)]
    rfl

/-- A branch whose condition is read from the host's registers goes the same way in both states. -/
theorem agree_branch (h : Agree g s t) (c : Prop) [Decidable c] (target : Nat) :
    Agree g (if c then jump target s else advance s) (if c then jump target t else advance t) := by
  split
  · exact agree_jump h target
  · exact agree_advance h

theorem agreeOutcome_execStmt (h : Agree g s t) (st : HostStmt) (hr : stmtReady g s st = true) :
    AgreeOutcome (stmtWrites g st) (execStmt P st s) (execStmt P st t) := by
  cases st with
  | memRead dst addr bytes => exact agreeOutcome_memRead P h dst bytes hr
  | memWrite addr bytes v => exact agreeOutcome_memWrite P h addr bytes v hr
  | li dst v => exact agreeOutcome_li P h dst v
  | subi dst src k | andi dst src k =>
    simp only [execStmt, h.h]
    exact agree_advance (agree_setH h dst _)
  | bnz src target | beqz src target =>
    simp only [execStmt, h.h]
    exact agree_branch h _ target
  | j target => exact agree_jump h target
  | halt => exact h

theorem agreeOutcome_hostStep (h : Agree g s t) (hdue : resetDue s = false)
    (hr : stepReady g s = true) :
    AgreeOutcome (stepWrites g s) (hostStep P s) (hostStep P t) := by
  have hstmt : t.program[t.pc]? = s.program[s.pc]? := by rw [h.program, h.pc]
  cases hst : s.program[s.pc]? with
  | some st =>
    rw [stepReady_of_stmt hdue hst] at hr
    rw [stepWrites_of_stmt hdue hst, hostStep_of_stmt P hst, hostStep_of_stmt P (hstmt.trans hst)]
    exact agreeOutcome_execStmt P h st hr
  | none =>
    rw [stepWrites_of_ended hdue hst, hostStep_of_ended P hst, hostStep_of_ended P (hstmt.trans hst)]
    exact h

/-- A ready step under one RESET_DATA ends as it does under another: a reset unwrites what it loads,
and a host step reads only what is written. -/
theorem agreeOutcome_stepAt (d : DataReg → Word) (h : Agree g s t) (hr : stepReady g s = true) :
    AgreeOutcome (stepWrites g s) (stepAt P s) (stepAt { P with resetData := d } t) := by
  match hs : s.resets with
  | [] =>
    have hdue : resetDue s = false := by rw [resetDue, hs]; rfl
    rw [stepAt_of_no_resets P hs, stepAt_of_no_resets _ (h.resets ▸ hs), hostStep_resetData]
    exact agreeOutcome_hostStep P h hdue hr
  | 0 :: later =>
    have hdue : resetDue s = true := by rw [resetDue, hs]; rfl
    rw [stepAt_of_reset_due P hs, stepAt_of_reset_due _ (h.resets ▸ hs),
      stepWrites_of_reset_due hdue]
    exact agree_setResets (agree_resetBlock h _ d) later
  | (n + 1) :: later =>
    have hdue : resetDue s = false := by rw [resetDue, hs]; rfl
    rw [stepAt_of_reset_later P hs, stepAt_of_reset_later _ (h.resets ▸ hs), hostStep_resetData]
    exact agreeOutcome_mapNext_setResets _ (agreeOutcome_hostStep P h hdue hr)

end

/-- The two machines of a safe run agree at its end, on what has been written by then. -/
theorem agree_of_safe_run (d : DataReg → Word) {n : Nat} {g : Written} {s t s' : State}
    (h : Agree g s t) (hsafe : safeFor n g s = true) (hrun : core.run n s = .next s') :
    ∃ g' t', (Claims.coreAt { defaultParams with resetData := d }).run n t = .next t' ∧
      Agree g' s' t' := by
  induction n generalizing g s t with
  | zero =>
    cases hrun
    exact ⟨g, t, rfl, h⟩
  | succ n ih =>
    obtain ⟨u, hstep, hrest⟩ := exists_step_of_run_succ hrun
    obtain ⟨hready, hsafe'⟩ := safeFor_succ hsafe hstep
    have hout := agreeOutcome_stepAt defaultParams d h hready
    rw [show stepAt defaultParams s = .next u from hstep] at hout
    obtain ⟨u', hstep', hagree⟩ := exists_next_of_agreeOutcome hout
    obtain ⟨g', t', hrun', hagree'⟩ := ih hagree hsafe' hrest
    exact ⟨g', t', (run_succ hstep' n).trans hrun', hagree'⟩

end Sys2Proof.Safety
end

section
/-! The settled statements of 70_reset. -/
namespace Sys2Proof.ResetLaws

open Sys2Proof.Machine Sys2Proof.Safety Sys2Proof.Claims

/-- Settles O59: `step` is the step at the default parameters, and a ready step keeps the agreement
under any other RESET_DATA. -/
theorem readyStepIgnoresResetContents : Obligations.ReadyStepIgnoresResetContents :=
  fun d _ _ _ h hready => agreeOutcome_stepAt defaultParams d h hready

/-- Settles O60: by induction on the run's length its two ends agree, and agreeing states show the
same STATUS, host registers, pc and written RES. -/
theorem safeRunIgnoresResetContents : Obligations.SafeRunIgnoresResetContents := by
  intro d n s t s' h hsafe hrun
  obtain ⟨_, t', hrun', hend⟩ := agree_of_safe_run d h hsafe hrun
  exact ⟨t', hrun', hend.status.symm, hend.h.symm, hend.pc.symm, fun hv => (hend.res hv).symm⟩

end Sys2Proof.ResetLaws
end
